-- ==== Sys2Proof/Word.lean ====
section
/-! DEFINITION. The machine's two word types: the nibble (R5: "a 4-bit value, domain [0,15]"), which every register
and every memory location holds, and the byte, in which memory is packed (R50) and instruction words are fetched (R54).
All values are unsigned (R5). -/

namespace Sys2Proof

/-- A 4-bit value (R5). -/
abbrev Nibble := BitVec 4

/-- An 8-bit value (R5). -/
abbrev Byte := BitVec 8

end Sys2Proof
end

