-- ==== Sys2Proof/Config.lean ====
section
/-! DEFINITION. What is fixed before a run: the configuration inputs of R4 and R39 as one record, the opcode map of R74
as one table, the launch premises of R194, and the model's only free value. -/

namespace Sys2Proof

/-- The 16 opcodes of R1, in the order the document lists them (R74). -/
inductive Opcode where
  | hlt | jmp | jze | jnz | lda | sta | get | put
  | rol | ror | adc | ccf | scf | del | ldl | fla
deriving DecidableEq, Repr

/-- OPCODE_MAP's default: opcode number n is the n-th of the listing (R74, decision D1). DEDUCED (log entry 9):
only HLT = 0 and JMP = 1 are confirmed by the document. A correction touches this table and nothing else. -/
def listingOrder : Vector Opcode 16 :=
  #v[.hlt, .jmp, .jze, .jnz, .lda, .sta, .get, .put,
     .rol, .ror, .adc, .ccf, .scf, .del, .ldl, .fla]

/-- The configuration inputs (R4, R39): "fixed before a run and constant through it". -/
structure Config where
  /-- BUDGET: the most instructions a run may count. -/
  budget : Nat
  /-- QCAP: the capacity of each port queue. -/
  qcap : Nat
  /-- PORTS_ENABLED: whether GET and PUT decode as themselves. -/
  portsEnabled : Bool
  /-- SURFACE_INVALID: whether an InvalidInstruction fault is returned as an error. -/
  surfaceInvalid : Bool
  /-- COUNT_NOT_TAKEN: whether a not-taken JZE or JNZ is counted. -/
  countNotTaken : Bool
  /-- OPCODE_MAP: the opcode each opcode nibble stands for. -/
  opcodeMap : Vector Opcode 16
  /-- INPUT_SEED: the input queue's contents at load. -/
  inputSeed : List Byte
  /-- OUTPUT_SEED: the output queue's contents at load. -/
  outputSeed : List Byte
deriving DecidableEq, Repr

/-- The default configuration, as 95_test_vectors.md lists it: the defaults of R4, and for the two OPEN inputs
PORTS_ENABLED = false and SURFACE_INVALID = true. DESIGN CHOICE (log entry 2): R4 gives those two no default. -/
def Config.standard : Config where
  budget := 100
  qcap := 5
  portsEnabled := false
  surfaceInvalid := true
  countNotTaken := false
  opcodeMap := listingOrder
  inputSeed := []
  outputSeed := []

/-- The premise of R194 on one seed: at most QCAP entries, all at most 15. -/
def Config.seedFits (c : Config) (seed : List Byte) : Bool :=
  decide (seed.length ≤ c.qcap) && seed.all fun v => decide (v.toNat ≤ 15)

/-- What R194 asks of a configuration before a run. -/
def Config.launchable (c : Config) : Bool :=
  c.seedFits c.inputSeed && c.seedFits c.outputSeed

/-- FREE VALUE (log entry 10). When MemWrite's location and value both fail their checks, whether the bounds check is
the one that reports: R52 says the document gives no order. No instruction reaches this case. -/
opaque Config.boundsCheckFirst (location value : Nat) : Bool

end Sys2Proof
end

