-- ==== Sys2Proof/Syntax.lean ====
section
/-! DEFINITION. The instructions: one constructor per row of spec/opcode_table.json. -/

namespace Sys2Proof

/-- An instruction as the decoder gives it. An N2 form carries its operand nibble `a`, an absolute location (R73); an N1
form carries nothing, since the word's low nibble is ignored (R72). -/
inductive Instr where
  /-- Halt (R110). -/
  | hlt
  /-- Unconditional jump (R111). -/
  | jmp (a : Nibble)
  /-- Jump if ZF is set (R112). -/
  | jze (a : Nibble)
  /-- Jump if ZF is clear (R113). -/
  | jnz (a : Nibble)
  /-- Load the accumulator (R120). -/
  | lda (a : Nibble)
  /-- Store the accumulator (R121). -/
  | sta (a : Nibble)
  /-- Read the input port (R130). -/
  | get
  /-- Write the output port (R131). -/
  | put
  /-- Rotate left through carry (R140). -/
  | rol
  /-- Rotate right through carry (R141). -/
  | ror
  /-- Add memory and carry (R142). -/
  | adc (a : Nibble)
  /-- Clear the carry flag (R150). -/
  | ccf
  /-- Set the carry flag (R151). -/
  | scf
  /-- Decrement the loop index (R152). -/
  | del
  /-- Load the loop index (R122). -/
  | ldl (a : Nibble)
  /-- Flip the accumulator (R143). -/
  | fla
  /-- The sentinel a disabled opcode decodes to; `code` is the opcode nibble (R160). -/
  | invalid (code : Nibble)
deriving DecidableEq, Repr

end Sys2Proof
end

