-- ==== Sys2Proof/WellFormed.lean ====
section
/-! DEFINITION. Which instructions exist under a configuration: those that some instruction word decodes to (R76, R77). -/

namespace Sys2Proof

/-- The opcode of an instruction; the sentinel INVALID has none of its own (R160). -/
def Instr.opcode : Instr → Option Opcode
  | .hlt => some .hlt
  | .jmp _ => some .jmp
  | .jze _ => some .jze
  | .jnz _ => some .jnz
  | .lda _ => some .lda
  | .sta _ => some .sta
  | .get => some .get
  | .put => some .put
  | .rol => some .rol
  | .ror => some .ror
  | .adc _ => some .adc
  | .ccf => some .ccf
  | .scf => some .scf
  | .del => some .del
  | .ldl _ => some .ldl
  | .fla => some .fla
  | .invalid _ => none

/-- Whether an opcode nibble decodes to the sentinel: 0x6 or 0x7 while PORTS_ENABLED is false (R76). DEDUCED (log
entry 8): the gate stays on these two nibbles under every OPCODE_MAP, as R76's pseudocode writes it. -/
def Config.gated (c : Config) (op : Nibble) : Bool :=
  (op == 6 || op == 7) && !c.portsEnabled

/-- The opcode nibble OPCODE_MAP gives an opcode (R74). -/
def Config.numberOf (c : Config) (o : Opcode) : Nibble :=
  BitVec.ofNat 4 (c.opcodeMap.toList.idxOf o)

/-- OPCODE_MAP gives no opcode two numbers; it then gives each of the 16 opcodes exactly one (R74). -/
def Config.mapOk (c : Config) : Bool :=
  decide c.opcodeMap.toList.Nodup

/-- The instruction is one that some word decodes to under `c`: the sentinel's code is a gated nibble, and every other
instruction's opcode is in the map, at a nibble that is not gated. -/
def Instr.wf (c : Config) (i : Instr) : Bool :=
  match i, i.opcode with
  | .invalid code, _ => c.gated code
  | _, some o => c.opcodeMap.toList.contains o && !c.gated (c.numberOf o)
  | _, none => false

end Sys2Proof
end

