-- ==== Sys2Proof/Decode.lean ====
section
/-! DEFINITION. From an 8-bit instruction word to an instruction (R70 to R78), and back: the encoder, written from the
same table. Decoding is total (R77); what it turns away it turns away by name, as the sentinel INVALID (R76). -/

namespace Sys2Proof

/-- `b[7:4]`, the high nibble (R6). -/
def hiNibble (b : Byte) : Nibble := b.extractLsb' 4 4

/-- `b[3:0]`, the low nibble (R6). -/
def loNibble (b : Byte) : Nibble := b.extractLsb' 0 4

/-- `h : l`, the byte with `h` in the high part (R7). -/
def joinNibbles (h l : Nibble) : Byte := h ++ l

/-- The instruction an opcode and the word's low nibble stand for; an N1 opcode ignores the nibble (R72). -/
def instrOf (o : Opcode) (a : Nibble) : Instr :=
  match o with
  | .hlt => .hlt
  | .jmp => .jmp a
  | .jze => .jze a
  | .jnz => .jnz a
  | .lda => .lda a
  | .sta => .sta a
  | .get => .get
  | .put => .put
  | .rol => .rol
  | .ror => .ror
  | .adc => .adc a
  | .ccf => .ccf
  | .scf => .scf
  | .del => .del
  | .ldl => .ldl a
  | .fla => .fla

/-- `OPCODE_MAP[op]` (R74). -/
def opcodeAt (c : Config) (op : Nibble) : Opcode :=
  c.opcodeMap[op.toNat]'op.isLt

/-- `Decode(w)` of R76. -/
def decode (c : Config) (w : Byte) : Instr :=
  if c.gated (hiNibble w) then .invalid (hiNibble w)
  else instrOf (opcodeAt c (hiNibble w)) (loNibble w)

/-- The operand nibble of an N2 instruction that uses one (R72, R73). -/
def Instr.operand : Instr → Option Nibble
  | .jmp a | .jze a | .jnz a | .lda a | .sta a | .adc a | .ldl a => some a
  | .hlt | .get | .put | .rol | .ror | .ccf | .scf | .del | .fla | .invalid _ => none

/-- The opcode nibble of an instruction (R74; for the sentinel its code, R160). -/
def Instr.number (c : Config) (i : Instr) : Nibble :=
  match i, i.opcode with
  | .invalid code, _ => code
  | _, some o => c.numberOf o
  | _, none => 0

/-- The word of an instruction (R71, R72). `fill` is the low nibble of a word whose low nibble is not used (an N1 form's,
which belongs to whatever follows, and the sentinel's); every value decodes alike (log entry 14). -/
def encode (c : Config) (fill : Nibble) (i : Instr) : Byte :=
  joinNibbles (i.number c) (i.operand.getD fill)

/-- The instruction's width in locations (R75). -/
def Instr.width : Instr → Nat
  | .jmp _ | .jze _ | .jnz _ | .lda _ | .sta _ | .adc _ | .ldl _ | .invalid _ => 2
  | .hlt | .get | .put | .rol | .ror | .ccf | .scf | .del | .fla => 1

/-- The configuration the opcode table's words are read under: the listing order and, so that all 16 opcodes are
themselves, PORTS_ENABLED = true (log entry 7: under this choice the table's INVALID row, which has the condition
PORTS_ENABLED = false and shares its words with GET and PUT, is read as GET or PUT). -/
def tableConfig : Config := { Config.standard with portsEnabled := true }

/-- The instruction a word of spec/opcode_table.json decodes to. Every instruction word is one byte (R70), so a longer
one, or one whose value needs more bits, is none. -/
def decodeTableWord (nbits w : Nat) : Option Instr :=
  if nbits ≤ 8 ∧ w < 256 then some (decode tableConfig (BitVec.ofNat 8 w)) else none

end Sys2Proof
end

