-- ==== Sys2Proof/Machine/State.lean ====
section
/-! DEFINITION. The machine's state (R20) as plain data, the spec's faults (R171), the run status (R40), the refusals of
the model, and the state before any image is loaded. -/

namespace Sys2Proof.Machine

/-- The spec's four fault kinds (R171). An instruction that raises one TAKES it (R177, `takeFault`): the step answers a
next state whose status is `faulted`. No step answers `Host.Outcome.fault` (log entry 5). -/
inductive Fault where
  /-- Raised by INVALID, that is by GET or PUT decoded while PORTS_ENABLED is false (R160, R172). Safe: the spec's own. -/
  | invalidInstruction (opcode : Nibble)
  /-- Raised by MemRead and MemWrite at a location above 15 (R51, R52); no instruction presents one (R53). Safe. -/
  | outOfBounds (location : Nat)
  /-- Raised by a checked write of a value above 15 (R29, R52); among the instructions only by GET (R173). Safe. -/
  | valueTooLarge (value : Nat)
  /-- "an internal math error": no rule raises it (R175); the constructor is kept as D20 asks. Safe: nothing raises it. -/
  | mathError (context : String)
deriving DecidableEq, Repr

/-- Why the model gives no next state. -/
inductive Refusal where
  /-- Said by `exec` of an instruction with no meaning yet; no arm says so. Safe. -/
  | notModelled (mnemonic : String)
  /-- Said by `step` of a machine without a complete image, and by an access to a memory byte no image gave a value:
  "A model therefore has no power-on memory value" and must refuse such a machine (R192). Safe. -/
  | noImage
deriving DecidableEq, Repr

/-- How the run stands (R40). -/
inductive Status where
  | running
  | halted
  | exhausted
  | faulted (f : Fault)
deriving DecidableEq, Repr

/-- The memory bytes that have a value: (byte index, byte) pairs, indexes strictly rising and below 8 (R50). A byte not
listed has no value: there is no power-on memory (R192). -/
abbrev Memory := List Host.Cell

/-- The machine (R20), with the configuration its run was started under (log entry 1). -/
@[ext]
structure State where
  /-- Instruction pointer, the program counter (R21). -/
  ip : Nibble
  /-- Loop index (R22). -/
  li : Nibble
  /-- Accumulator (R23). -/
  ac : Nibble
  /-- Flags register: bit 0 CF, bit 1 ZF, bit 2 OF, bit 3 HF (R25). -/
  fr : Nibble
  /-- Memory, 8 bytes (R34, R50). -/
  mem : Memory
  /-- Input queue, front first (R35). -/
  inQ : List Byte
  /-- Output queue, front first (R36). -/
  outQ : List Byte
  /-- Executed-instruction counter (R38). -/
  count : Nat
  /-- Run status (R40). -/
  status : Status
  /-- Configuration: no step changes it (R39). -/
  cfg : Config
deriving DecidableEq, Repr

/-- The machine before an image is loaded: the register file "zeroed by default" (R43, R192), no memory value at all
(R192), empty queues, count 0, status Running (R191), and the default configuration (log entries 2 and 3). -/
def State.reset : State where
  ip := 0
  li := 0
  ac := 0
  fr := 0
  mem := []
  inQ := []
  outQ := []
  count := 0
  status := .running
  cfg := Config.standard

/-- What a step or an instruction answers. -/
abbrev Answer := Host.Outcome State Fault Refusal

/-- Why a primitive gives no value: it raises a fault of the spec (R7 `raise`), or the model refuses. -/
inductive Stop where
  | raise (f : Fault)
  | refuse (r : Refusal)
deriving DecidableEq, Repr

end Sys2Proof.Machine
end

