-- ==== Sys2Proof/Machine/Flags.lean ====
section
/-! DEFINITION. The flags register FR: its four bits by name (R25), writing one of them (R7), and every flag
computation the spec gives (R27, R30, R140 to R142). -/

namespace Sys2Proof.Machine

/-- The nibble `v` with bit `i` set to `b` and every other bit kept. -/
def putBit (v : Nibble) (i : Nat) (b : Bool) : Nibble :=
  if b then v ||| (1#4 <<< i) else v &&& ~~~(1#4 <<< i)

/-- The nibble whose bits 3, 2, 1 and 0 are HF, OF, ZF and CF (R25). -/
def packFlags (hf ov zf cf : Bool) : Nibble :=
  BitVec.ofNat 4 (8 * hf.toNat + 4 * ov.toNat + 2 * zf.toNat + cf.toNat)

/-- CF, the carry flag: bit 0 of FR (R25). -/
def State.cf (s : State) : Bool := s.fr.getLsbD 0

/-- ZF, the zero flag: bit 1 of FR (R25). -/
def State.zf (s : State) : Bool := s.fr.getLsbD 1

/-- OF, "carry did not change": bit 2 of FR (R25, R27). -/
def State.ov (s : State) : Bool := s.fr.getLsbD 2

/-- HF, the halt flag: bit 3 of FR (R25, R28). -/
def State.hf (s : State) : Bool := s.fr.getLsbD 3

/-- `CF <- b` (R7). -/
def State.setCF (b : Bool) (s : State) : State := { s with fr := putBit s.fr 0 b }

/-- `ZF <- b` (R7). -/
def State.setZF (b : Bool) (s : State) : State := { s with fr := putBit s.fr 1 b }

/-- `OF <- b` (R7). -/
def State.setOV (b : Bool) (s : State) : State := { s with fr := putBit s.fr 2 b }

/-- `HF <- b` (R7). -/
def State.setHF (b : Bool) (s : State) : State := { s with fr := putBit s.fr 3 b }

/-- ZF of a value written to AC or LI: "(new value == 0)" (R30). -/
def zeroFlag (v : Nibble) : Bool := v == 0

/-- OF of ROL, ROR and ADC: `(old CF == new CF)` (R27). -/
def overflowFlag (oldCF newCF : Bool) : Bool := oldCF == newCF

/-- CF of ROL: the bit rotated out, AC[3] (R140). -/
def rolCarry (ac : Nibble) : Bool := ac.getLsbD 3

/-- CF of ROR: the bit rotated out, AC[0] (R141). -/
def rorCarry (ac : Nibble) : Bool := ac.getLsbD 0

/-- CF of ADC: bit 4 of the sum (R142). -/
def sumCarry (sum : Byte) : Bool := sum.getLsbD 4

end Sys2Proof.Machine
end

