-- ==== Sys2Proof/Machine/Ops.lean ====
section
/-! DEFINITION. The operations the instructions share: memory bytes and nibble locations (R50 to R55), the register file
and its checked writes (R29 to R31), the port queues (R35, R36), the outcomes of an instruction (R94, R95), and taking a
fault (R177). There is no return from a fault: "A faulted or halted machine does not resume within its run" (R180). -/

namespace Sys2Proof.Machine

/-- The state with the counter at `n`. -/
def State.setCount (n : Nat) (s : State) : State := { s with count := n }

/-- The state with the run status `x`. -/
def State.setStatus (x : Status) (s : State) : State := { s with status := x }

/-- The state with the memory `m`. -/
def State.setMem (m : Memory) (s : State) : State := { s with mem := m }

/-! ## Memory bytes -/

/-- The value of memory byte `k`, if it has one. -/
def Memory.read : Memory → Nat → Option Byte
  | [], _ => none
  | (a, b) :: rest, k => if a = k then some b else Memory.read rest k

/-- Memory with byte `k` holding `b`; the indexes stay in rising order. -/
def Memory.write : Memory → Nat → Byte → Memory
  | [], k, b => [(k, b)]
  | (a, c) :: rest, k, b =>
    if k < a then (k, b) :: (a, c) :: rest
    else if a = k then (k, b) :: rest
    else (a, c) :: Memory.write rest k b

/-- The canonical form: indexes strictly rising, all below 8. (An unlisted byte has no value, so no entry can equal one.) -/
def Memory.wf (m : Memory) : Bool :=
  decide ((m.map Prod.fst).Pairwise (· < ·)) && m.all fun c => decide (c.1 < 8)

/-- All 8 bytes have a value: an image has been loaded (R41, R192). -/
def Memory.loaded (m : Memory) : Bool :=
  (List.range 8).all fun k => (m.read k).isSome

/-! ## Nibble locations -/

/-- The half of byte `n div 2` that location `n` is: "even n = high nibble, odd n = low nibble" (R50). -/
def nibbleAt (n : Nat) (b : Byte) : Nibble :=
  if n % 2 = 0 then hiNibble b else loNibble b

/-- Byte `n div 2` with the half that location `n` is replaced by `v`, the other half kept (R52). -/
def replaceNibble (n : Nat) (v : Nibble) (b : Byte) : Byte :=
  if n % 2 = 0 then joinNibbles v (loNibble b) else joinNibbles (hiNibble b) v

/-- `mem[n]` (R50), if it has a value. -/
def Memory.nibble (m : Memory) (n : Nat) : Option Nibble :=
  (m.read (n / 2)).map (nibbleAt n)

/-- `MemRead(n, 1)` (R51). -/
def memRead (n : Nat) (s : State) : Except Stop Nibble :=
  if 8 ≤ n / 2 then .error (.raise (.outOfBounds n))
  else match s.mem.nibble n with
    | some v => .ok v
    | none => .error (.refuse .noImage)

/-- The fault of `MemWrite(n, 1, v)`, if one of its two checks fails (R52). Where both fail, R52 says the order is not
given: a free value tells which one reports (log entry 10). -/
def memWriteFault (n v : Nat) : Option Fault :=
  if 8 ≤ n / 2 then
    if 15 < v then
      if Config.boundsCheckFirst n v then some (.outOfBounds n) else some (.valueTooLarge v)
    else some (.outOfBounds n)
  else if 15 < v then some (.valueTooLarge v)
  else none

/-- `MemWrite(n, 1, v)` (R52): only the targeted half of byte `n div 2` changes; on a fault nothing does. -/
def memWrite (n v : Nat) (s : State) : Except Stop State :=
  match memWriteFault n v with
  | some f => .error (.raise f)
  | none =>
    match s.mem.read (n / 2) with
    | some b => .ok (s.setMem (s.mem.write (n / 2) (replaceNibble n (BitVec.ofNat 4 v) b)))
    | none => .error (.refuse .noImage)

/-- `FetchWord(n)`: `mem[n] : mem[(n + 1) mod 16]` (R54). It changes no state. -/
def fetchWord (n : Nibble) (s : State) : Except Stop Byte :=
  match memRead n.toNat s with
  | .error e => .error e
  | .ok h =>
    match memRead (n + 1).toNat s with
    | .error e => .error e
    | .ok l => .ok (joinNibbles h l)

/-! ## Registers -/

/-- `IP <- (IP + n) mod 16`; no flag changes (R21, R99). -/
def State.advanceIP (n : Nibble) (s : State) : State := { s with ip := s.ip + n }

/-- `IP <- target` (R7). -/
def State.jumpTo (target : Nibble) (s : State) : State := { s with ip := target }

/-- A write of a nibble to AC, and `ZF <- (AC == 0)` (R30). -/
def State.writeAC (v : Nibble) (s : State) : State := ({ s with ac := v }).setZF (zeroFlag v)

/-- A write of a nibble to LI, and `ZF <- (LI == 0)` (R30). -/
def State.writeLI (v : Nibble) (s : State) : State := ({ s with li := v }).setZF (zeroFlag v)

/-- The registers of the register file (R20). -/
inductive Reg where
  | ip | li | ac | fr
deriving DecidableEq, Repr

/-- Checked construction of a nibble: "reject >15" (R8). -/
def checkNibble (v : Nat) : Except Fault Nibble :=
  if 15 < v then .error (.valueTooLarge v) else .ok (BitVec.ofNat 4 v)

/-- `set(r, v)` (R29, R30): above 15 it fails and changes nothing; AC and LI also recompute ZF. -/
def setReg (r : Reg) (v : Nat) (s : State) : Except Fault State :=
  match checkNibble v with
  | .error f => .error f
  | .ok x =>
    match r with
    | .ip => .ok (s.jumpTo x)
    | .li => .ok (s.writeLI x)
    | .ac => .ok (s.writeAC x)
    | .fr => .ok { s with fr := x }

/-- The increment accessor of IP: wraps, no flag (R31). -/
def State.incIP (s : State) : State := s.advanceIP 1

/-- The decrement accessor of IP: wraps, no flag; no instruction uses it (R21, R31). -/
def State.decIP (s : State) : State := s.advanceIP 15

/-- The increment accessor of LI: wraps and recomputes ZF; no instruction uses it (R31). -/
def State.incLI (s : State) : State := s.writeLI (s.li + 1)

/-- The decrement accessor of LI: `(LI + 15) mod 16`, ZF recomputed (R31). -/
def State.decLI (s : State) : State := s.writeLI (s.li + 15)

/-- The increment accessor of AC: wraps and recomputes ZF; no instruction uses it (R23, R31). -/
def State.incAC (s : State) : State := s.writeAC (s.ac + 1)

/-- The decrement accessor of AC: wraps and recomputes ZF; no instruction uses it (R23, R31). -/
def State.decAC (s : State) : State := s.writeAC (s.ac + 15)

/-- The result of ROL, ROR or ADC: AC with ZF, then CF, then OF (R140, R141, R142). -/
def State.writeResult (v : Nibble) (carry : Bool) (s : State) : State :=
  ((s.writeAC v).setCF carry).setOV (overflowFlag s.cf carry)

/-! ## Port queues -/

/-- The front entry of inQ and the queue without it; 0 from an empty queue, which stays empty (R130). -/
def popInput (s : State) : Byte × State :=
  match s.inQ with
  | [] => (0, s)
  | v :: rest => (v, { s with inQ := rest })

/-- The queue without its back entry when it is longer than QCAP (R131). -/
def trimQueue (cap : Nat) (q : List Byte) : List Byte :=
  if cap < q.length then q.dropLast else q

/-- `outQ <- [v] ++ outQ`, the back entry dropped when the queue would exceed QCAP (R36, R131). -/
def pushOutput (v : Nibble) (s : State) : State :=
  { s with outQ := trimQueue s.cfg.qcap (v.zeroExtend 8 :: s.outQ) }

/-! ## Outcomes of an instruction -/

/-- Taking a fault, the three things of R177: HF is forced set, the status records the fault, and so the run is over.
Nothing is saved, nothing else changes, and the count stays (R97). -/
def takeFault (f : Fault) (s : State) : State :=
  (s.setHF true).setStatus (.faulted f)

/-- Outcome `Done`: the counter goes up by 1 (R95). -/
def done (s : State) : Answer := .next (s.setCount (s.count + 1))

/-- Outcome `JumpNotTaken`: the counter goes up by 1 when COUNT_NOT_TAKEN is true, else by 0 (R95). -/
def jumpNotTaken (s : State) : Answer :=
  .next (s.setCount (s.count + s.cfg.countNotTaken.toNat))

/-- Outcome `Fail(f)`: the loop takes the fault (R94, R96). -/
def fail (f : Fault) (s : State) : Answer := .next (takeFault f s)

/-- What an instruction answers when a primitive gives it no value. -/
def stopAt (e : Stop) (s : State) : Answer :=
  match e with
  | .raise f => fail f s
  | .refuse r => .refused r

end Sys2Proof.Machine
end

