-- ==== Sys2Proof/Machine/Operands.lean ====
section
/-! DEFINITION. The operand forms: the core has one addressing mode, direct (R73, R123). -/

namespace Sys2Proof.Machine

/-- The effective address of LDA, STA, LDL and ADC: `EA = a` (R123). -/
def effectiveAddress (a : Nibble) : Nat := a.toNat

/-- The target of JMP, JZE and JNZ: the operand nibble, an absolute location (R73, R114). -/
def jumpTarget (a : Nibble) : Nibble := a

/-- Read the nibble at an operand's location and go on with it; where the read gives no value, stop (R51). -/
def withOperand (a : Nibble) (s : State) (k : Nibble → Answer) : Answer :=
  match memRead (effectiveAddress a) s with
  | .ok v => k v
  | .error e => stopAt e s

end Sys2Proof.Machine
end

