-- ==== Sys2Proof/Machine/Control.lean ====
section
/-! DEFINITION. Control transfer: HLT, JMP, JZE, JNZ (41_control.md). -/

namespace Sys2Proof.Machine

/-- A conditional jump: taken, `IP <- a` and `Done`; not taken, `IP <- (IP + 2) mod 16` and `JumpNotTaken` (R112, R113). -/
def condJump (taken : Bool) (a : Nibble) (s : State) : Answer :=
  if taken then done (s.jumpTo (jumpTarget a)) else jumpNotTaken (s.advanceIP 2)

/-- HLT: HF is set and IP stays (R110). -/
def execHlt (s : State) : Answer := done (s.setHF true)

/-- JMP a (R111). -/
def execJmp (a : Nibble) (s : State) : Answer := done (s.jumpTo (jumpTarget a))

/-- JZE a: taken when ZF is set (R112). -/
def execJze (a : Nibble) (s : State) : Answer := condJump s.zf a s

/-- JNZ a: taken when ZF is clear (R113). -/
def execJnz (a : Nibble) (s : State) : Answer := condJump (!s.zf) a s

end Sys2Proof.Machine
end

