-- ==== Sys2Proof/Machine/FlagsLoop.lean ====
section
/-! DEFINITION. Carry flag and loop index: CCF, SCF, DEL (45_flags_loop.md). -/

namespace Sys2Proof.Machine

/-- CCF: CF only; OF is not updated (R150). -/
def execCcf (s : State) : Answer := done ((s.advanceIP 1).setCF false)

/-- SCF: CF only; OF is not updated (R151). -/
def execScf (s : State) : Answer := done ((s.advanceIP 1).setCF true)

/-- DEL: the decrement accessor of LI, with no borrow written (R152, R31). -/
def execDel (s : State) : Answer := done (s.advanceIP 1).decLI

end Sys2Proof.Machine
end

