-- ==== Sys2Proof/Machine/Invalid.lean ====
section
/-! DEFINITION. The sentinel INVALID (46_invalid.md). -/

namespace Sys2Proof.Machine

/-- INVALID(code): raises InvalidInstruction(code) and changes nothing of its own; the loop then takes the fault (R160,
R177). No decoding gives a code other than 6 or 7; for one, the same fault is taken (log entry 12). -/
def execInvalid (code : Nibble) (s : State) : Answer := fail (.invalidInstruction code) s

end Sys2Proof.Machine
end

