-- ==== Sys2Proof/Machine/LoadStore.lean ====
section
/-! DEFINITION. Loads and stores: LDA, STA, LDL (42_load_store.md). The IP update comes first (R123). -/

namespace Sys2Proof.Machine

/-- LDA a (R120). -/
def execLda (a : Nibble) (s : State) : Answer :=
  withOperand a (s.advanceIP 2) fun v => done ((s.advanceIP 2).writeAC v)

/-- STA a: only the nibble at `a` changes; no flag does (R121). -/
def execSta (a : Nibble) (s : State) : Answer :=
  match memWrite (effectiveAddress a) s.ac.toNat (s.advanceIP 2) with
  | .ok t => done t
  | .error e => stopAt e (s.advanceIP 2)

/-- LDL a: ZF from LI, not from AC (R122). -/
def execLdl (a : Nibble) (s : State) : Answer :=
  withOperand a (s.advanceIP 2) fun v => done ((s.advanceIP 2).writeLI v)

end Sys2Proof.Machine
end

