-- ==== Sys2Proof/Machine/Ports.lean ====
section
/-! DEFINITION. The port instructions GET and PUT (43_ports.md). The gate on PORTS_ENABLED is the decoder's (R76): a
disabled GET or PUT is decoded as INVALID and these meanings never run (log entry 11). -/

namespace Sys2Proof.Machine

/-- GET: the IP advance and the pop come before the checked write of AC, so a fault leaves them made (R130, D21). -/
def execGet (s : State) : Answer :=
  let popped := popInput (s.advanceIP 1)
  match setReg .ac popped.1.toNat popped.2 with
  | .ok t => done t
  | .error f => fail f popped.2

/-- PUT: the newest entry goes to the front, and no flag changes (R131). -/
def execPut (s : State) : Answer :=
  done (pushOutput s.ac (s.advanceIP 1))

end Sys2Proof.Machine
end

