-- ==== Sys2Proof/Machine/RotateAdd.lean ====
section
/-! DEFINITION. Rotate, add and complement: ROL, ROR, ADC, FLA (44_rotate_add.md). -/

namespace Sys2Proof.Machine

/-- `(b ? 1 : 0)` as a nibble. -/
def bitNibble (b : Bool) : Nibble := (BitVec.ofBool b).zeroExtend 4

/-- AC after ROL: `((AC << 1) mod 16) | (oldCF ? 1 : 0)` (R140). -/
def rolValue (ac : Nibble) (oldCF : Bool) : Nibble := (ac <<< 1) ||| bitNibble oldCF

/-- AC after ROR: `(AC >> 1) | ((oldCF ? 1 : 0) << 3)` (R141). -/
def rorValue (ac : Nibble) (oldCF : Bool) : Nibble := (ac >>> 1) ||| (bitNibble oldCF <<< 3)

/-- ADC's sum: `zext_8(AC) + zext_8(m) + (oldCF ? 1 : 0)`, 0 to 31 (R142). -/
def adcSum (ac m : Nibble) (oldCF : Bool) : Byte :=
  ac.zeroExtend 8 + m.zeroExtend 8 + (bitNibble oldCF).zeroExtend 8

/-- ROL (R140). -/
def execRol (s : State) : Answer :=
  done ((s.advanceIP 1).writeResult (rolValue s.ac s.cf) (rolCarry s.ac))

/-- ROR (R141). -/
def execRor (s : State) : Answer :=
  done ((s.advanceIP 1).writeResult (rorValue s.ac s.cf) (rorCarry s.ac))

/-- ADC a (R142). -/
def execAdc (a : Nibble) (s : State) : Answer :=
  withOperand a (s.advanceIP 2) fun m =>
    done ((s.advanceIP 2).writeResult (loNibble (adcSum s.ac m s.cf)) (sumCarry (adcSum s.ac m s.cf)))

/-- FLA: the complement of AC's 4 bits (R143). -/
def execFla (s : State) : Answer :=
  done ((s.advanceIP 1).writeAC (~~~s.ac))

end Sys2Proof.Machine
end

