-- ==== Sys2Proof/Machine/Dispatch.lean ====
section
/-! DEFINITION. One arm per instruction: the body of a loop iteration after the decoding, that is the instruction's own
effects and the loop's treatment of its outcome (R91, R93). -/

namespace Sys2Proof.Machine

def exec (i : Instr) (s : State) : Host.Outcome State Fault Refusal :=
  match i with
  | .hlt => Sys2Proof.Machine.execHlt s
  | .jmp a => Sys2Proof.Machine.execJmp a s
  | .jze a => Sys2Proof.Machine.execJze a s
  | .jnz a => Sys2Proof.Machine.execJnz a s
  | .lda a => Sys2Proof.Machine.execLda a s
  | .sta a => Sys2Proof.Machine.execSta a s
  | .get => Sys2Proof.Machine.execGet s
  | .put => Sys2Proof.Machine.execPut s
  | .rol => Sys2Proof.Machine.execRol s
  | .ror => Sys2Proof.Machine.execRor s
  | .adc a => Sys2Proof.Machine.execAdc a s
  | .ccf => Sys2Proof.Machine.execCcf s
  | .scf => Sys2Proof.Machine.execScf s
  | .del => Sys2Proof.Machine.execDel s
  | .ldl a => Sys2Proof.Machine.execLdl a s
  | .fla => Sys2Proof.Machine.execFla s
  | .invalid code => Sys2Proof.Machine.execInvalid code s

end Sys2Proof.Machine
end

