-- ==== Sys2Proof/Machine/Loop.lean ====
section
/-! DEFINITION. The parts of the fetch-execute loop around an instruction (R91): the loop's guard, fetching and decoding
the instruction at IP, and putting a word where the loop fetches next. -/

namespace Sys2Proof.Machine

/-- The loop's guard, tested before every fetch (R91, R92): the answer of an iteration that fetches nothing, or none
when the iteration goes on. A run that has ended executes nothing more (R180; log entry 4). A machine without a complete
image is refused (R192; log entry 3). HF is tested before the budget (R92, D3). -/
def loopGuard (s : State) : Option Answer :=
  if s.status ≠ .running then some (.next s)
  else if s.mem.loaded = false then some (.refused .noImage)
  else if s.hf then some (.next (s.setStatus .halted))
  else if s.cfg.budget ≤ s.count then some (.next (s.setStatus .exhausted))
  else none

/-- Fetch the word at IP and decode it (R70, R93). -/
def fetchInstr (s : State) : Except Stop Instr :=
  match fetchWord s.ip s with
  | .ok w => .ok (decode s.cfg w)
  | .error e => .error e

/-- Memory with location `n` holding `v`; a byte that had no value gets 0 in its other half. -/
def Memory.putNibble (n : Nat) (v : Nibble) (m : Memory) : Memory :=
  m.write (n / 2) (replaceNibble n v ((m.read (n / 2)).getD 0))

/-- Memory with every byte that has no value given 0: an image around a placed word. -/
def Memory.filled (m : Memory) : Memory :=
  (List.range 8).foldl (fun m k => if (m.read k).isSome then m else m.write k 0) m

/-- The state with the word `w` at IP, in a machine whose next step fetches it: the host's boot steps (R194) around one
word. The configuration reads words as the opcode table does (log entry 7) and leaves at least one instruction to count;
the memory is a complete image; HF is clear and the status is Running. Nothing else changes. -/
def State.bootWord (w : Byte) (s : State) : State :=
  { s.setHF false with
    mem := Memory.putNibble (s.ip + 1).toNat (loNibble w) (Memory.putNibble s.ip.toNat (hiNibble w) s.mem.filled)
    status := .running
    cfg := { s.cfg with
      portsEnabled := tableConfig.portsEnabled
      opcodeMap := tableConfig.opcodeMap
      budget := max s.cfg.budget (s.count + 1) } }

end Sys2Proof.Machine
end

