-- ==== Sys2Proof/Machine/Step.lean ====
section
/-! DEFINITION. One iteration of the fetch-execute loop (R91, R93). -/

namespace Sys2Proof.Machine

/-- One iteration: the guard, then the instruction at IP. -/
def step (s : State) : Host.Outcome State Fault Refusal :=
  match loopGuard s with
  | some answer => answer
  | none =>
    match fetchInstr s with
    | .ok i => exec i s
    | .error e => stopAt e s

/-- `s` with the instruction whose bits are `w` stored where the next step fetches. An instruction is one byte (R70), so
the bits above `nbits`, and all above 8, are 0. -/
def State.withFetchWord (s : State) (nbits w : Nat) : State :=
  s.bootWord (BitVec.ofNat 8 (w % 2 ^ nbits))

end Sys2Proof.Machine
end

