-- ==== Sys2Proof/Machine/Listing.lean ====
section
/-! DEFINITION. Assembling an instruction at a location (R80), the listing text of an instruction (R79), and the walk of
a disassembly by widths (R75, R81). Nothing in the core depends on this file. -/

namespace Sys2Proof.Machine

/-- Assemble an instruction at location `l`: `op` to location `l`, and for N2 `a` to location `(l + 1) mod 16` (R80). The
sentinel's second location is not used, and `fill` is written there. -/
def assembleAt (c : Config) (fill : Nibble) (l : Nibble) (i : Instr) (m : Memory) : Memory :=
  let m' := Memory.putNibble l.toNat (i.number c) m
  if i.width = 2 then Memory.putNibble (l + 1).toNat (i.operand.getD fill) m' else m'

/-- One hexadecimal digit 0-F (R79). -/
def hexDigit (v : Nibble) : String :=
  (["0", "1", "2", "3", "4", "5", "6", "7", "8", "9", "A", "B", "C", "D", "E", "F"])[v.toNat]'v.isLt

/-- `MNEMONIC` for N1 forms, `MNEMONIC a` for N2 forms, `INVALID(6)` or `INVALID(7)` for the sentinel (R79, D18). -/
def listing : Instr → String
  | .hlt => "HLT"
  | .jmp a => "JMP " ++ hexDigit a
  | .jze a => "JZE " ++ hexDigit a
  | .jnz a => "JNZ " ++ hexDigit a
  | .lda a => "LDA " ++ hexDigit a
  | .sta a => "STA " ++ hexDigit a
  | .get => "GET"
  | .put => "PUT"
  | .rol => "ROL"
  | .ror => "ROR"
  | .adc a => "ADC " ++ hexDigit a
  | .ccf => "CCF"
  | .scf => "SCF"
  | .del => "DEL"
  | .ldl a => "LDL " ++ hexDigit a
  | .fla => "FLA"
  | .invalid code => "INVALID(" ++ hexDigit code ++ ")"

/-- The first `n` instructions of the disassembly walk from location `l`, each with its location; the walk moves by the
widths of R75. Where it starts and stops is an argument, since R81 says the document gives neither (log entry 17). -/
def disassemble (s : State) : Nat → Nibble → List (Nibble × Instr)
  | 0, _ => []
  | n + 1, l =>
    match fetchWord l s with
    | .error _ => []
    | .ok w => (l, decode s.cfg w) :: disassemble s n (l + BitVec.ofNat 4 (decode s.cfg w).width)

end Sys2Proof.Machine
end

