-- ==== Sys2Proof/Machine/Image.lean ====
section
/-! DEFINITION. The host's interface to a machine before and after a run (R199): loading a 10-byte image (R41, R191,
R195), the register bytes (R42), the snapshot (R187), the run's result (R104), and the numeric fault codes (R171). -/

namespace Sys2Proof.Machine

/-- The two register bytes: "byte0 = IP in high nibble / LI in low nibble, byte1 = FR in high nibble / AC in low nibble"
(R41). -/
def State.regBytes (s : State) : Byte × Byte :=
  (joinNibbles s.ip s.li, joinNibbles s.fr s.ac)

/-- The state whose register file is decoded from two register bytes; ZF is taken as given (R41, D23). -/
def State.withRegBytes (b : Byte × Byte) (s : State) : State :=
  { s with
    ip := hiNibble b.1
    li := loNibble b.1
    fr := hiNibble b.2
    ac := loNibble b.2 }

/-- `Load(img[0..9])` under a configuration (R41, R191): the first 10 bytes are the image and further bytes are ignored;
from fewer than 10 no machine is constructed (R195). -/
def State.load (c : Config) : List Byte → Option State
  | r0 :: r1 :: m0 :: m1 :: m2 :: m3 :: m4 :: m5 :: m6 :: m7 :: _ =>
    some (({ State.reset with
      mem := [(0, m0), (1, m1), (2, m2), (3, m3), (4, m4), (5, m5), (6, m6), (7, m7)]
      inQ := c.inputSeed
      outQ := c.outputSeed
      count := 0
      status := .running
      cfg := c }).withRegBytes (r0, r1))
  | _ => none

/-- The read-only snapshot (R187), less the renderer's disassembly text (R81; log entry 17). -/
structure Snapshot where
  reg0 : Byte
  reg1 : Byte
  mem : List Byte
  inQ : List Byte
  outQ : List Byte
  count : Nat
deriving DecidableEq, Repr

/-- The snapshot of a machine; a machine without a complete image has none (R192). -/
def State.snapshot (s : State) : Option Snapshot :=
  ((List.range 8).mapM fun k => s.mem.read k).map fun bytes =>
    { reg0 := s.regBytes.1, reg1 := s.regBytes.2, mem := bytes, inQ := s.inQ, outQ := s.outQ, count := s.count }

/-- What a run returns to its caller (R104). -/
inductive RunResult where
  | ok (count : Nat)
  | err (f : Fault) (count : Nat)
deriving DecidableEq, Repr

/-- Whether a fault is returned as an error: every one but InvalidInstruction while SURFACE_INVALID is false (R179). -/
def surfaced (c : Config) : Fault → Bool
  | .invalidInstruction _ => c.surfaceInvalid
  | .outOfBounds _ => true
  | .valueTooLarge _ => true
  | .mathError _ => true

/-- The result of a run that has ended, none while it is running (R91, R96, R98, R104). -/
def State.result (s : State) : Option RunResult :=
  match s.status with
  | .running => none
  | .halted => some (.ok s.count)
  | .exhausted => some (.ok s.count)
  | .faulted f => some (if surfaced s.cfg f then .err f s.count else .ok s.count)

/-- The numeric code of a fault (R171, D5): a labelling, no rule depends on it. -/
def faultCode : Fault → Nat
  | .invalidInstruction _ => 1
  | .outOfBounds _ => 2
  | .valueTooLarge _ => 3
  | .mathError _ => 4

/-- The fault code of a run status; "Code 0 means no fault" (R171). -/
def statusCode : Status → Nat
  | .running => 0
  | .halted => 0
  | .exhausted => 0
  | .faulted f => faultCode f

end Sys2Proof.Machine
end

