-- ==== Sys2Proof/Machine/Run.lean ====
section
/-! DEFINITION. Runs (R91, R100, R200): iterations of the step, and a whole session of the host, load, run and result,
under fuel, which reports a run that did not end as such (D26). -/

namespace Sys2Proof.Machine

/-- `k` iterations of the loop; an answer that is no next state ends them. -/
def iterate : Nat → State → Answer
  | 0, s => .next s
  | k + 1, s =>
    match step s with
    | .next t => iterate k t
    | .fault f => .fault f
    | .refused r => .refused r

/-- What the host learns of a session. -/
inductive Report where
  /-- The payload was shorter than 10 bytes and no machine was constructed (R195). -/
  | tooShort
  /-- The run did not end within the fuel (R100, D26). -/
  | didNotEnd
  /-- The run ended with this result and this final state (R104). -/
  | ended (r : RunResult) (final : State)
  /-- The model stopped. -/
  | stopped
deriving DecidableEq, Repr

/-- Load a payload and run it for at most `fuel` iterations (R194, R199). -/
def session (c : Config) (payload : List Byte) (fuel : Nat) : Report :=
  match State.load c payload with
  | none => .tooShort
  | some s =>
    match iterate fuel s with
    | .next t =>
      match t.result with
      | some r => .ended r t
      | none => .didNotEnd
    | .fault _ => .stopped
    | .refused _ => .stopped

end Sys2Proof.Machine
end

