-- ==== Sys2Proof/Safety.lean ====
section
/-! DEFINITION. The terms the statements use: when a machine fetches, the invariant of a run, what a fault can be, and
what "the word decodes to" means. -/

namespace Sys2Proof.Machine

/-- The next iteration fetches (R92): the run goes on, HF is clear, budget is left, and there is an image (R192). -/
structure State.Ready (s : State) : Prop where
  running : s.status = .running
  notHalted : s.hf = false
  budgetLeft : s.count < s.cfg.budget
  image : s.mem.loaded = true

/-- What R40 and R200 say of each status; while Running nothing is said of HF, which an image may set (R28). -/
def State.statusAgrees (s : State) : Prop :=
  match s.status with
  | .running => True
  | .halted => s.hf = true
  | .exhausted => s.count = s.cfg.budget ∧ s.hf = false
  | .faulted _ => s.hf = true

/-- The invariant of a run: memory in canonical form, both queues within QCAP (R35, R36), the count within the budget
(R38), and the status in agreement with HF and the count (R40, R200). -/
structure State.Inv (s : State) : Prop where
  memory : s.mem.wf = true
  input : s.inQ.length ≤ s.cfg.qcap
  output : s.outQ.length ≤ s.cfg.qcap
  counter : s.count ≤ s.cfg.budget
  status : s.statusAgrees

/-- Every queue entry is "nibble-range" (R35). -/
def State.queuesInRange (s : State) : Prop :=
  (∀ v ∈ s.inQ, v.toNat ≤ 15) ∧ (∀ v ∈ s.outQ, v.toNat ≤ 15)

/-- Every word whose high nibble is `op` decodes to `i` of its low nibble, whatever PORTS_ENABLED says (R76), under the
listing order (R74). -/
def WordDecodes (op : Nibble) (i : Nibble → Instr) : Prop :=
  ∀ (c : Config) (x : Nibble), c.opcodeMap = listingOrder → decode c (joinNibbles op x) = i x

/-- As `WordDecodes`, for GET and PUT, while PORTS_ENABLED is true (R76). -/
def PortWordDecodes (op : Nibble) (i : Nibble → Instr) : Prop :=
  ∀ (c : Config) (x : Nibble), c.opcodeMap = listingOrder → c.portsEnabled = true → decode c (joinNibbles op x) = i x

/-! The `w` columns of R45's table, a Bool per register or flag. HF's column is HLT, and every fault (R25). -/

/-- The instructions that write AC (R45). -/
def writesAC : Instr → Bool
  | .lda _ | .get | .rol | .ror | .adc _ | .fla => true
  | .hlt | .jmp _ | .jze _ | .jnz _ | .sta _ | .put | .ccf | .scf | .del | .ldl _ | .invalid _ => false

/-- The instructions that write LI (R45). -/
def writesLI : Instr → Bool
  | .del | .ldl _ => true
  | .hlt | .jmp _ | .jze _ | .jnz _ | .lda _ | .sta _ | .get | .put | .rol | .ror | .adc _ | .ccf | .scf | .fla
  | .invalid _ => false

/-- The instructions that write CF (R45). -/
def writesCF : Instr → Bool
  | .rol | .ror | .adc _ | .ccf | .scf => true
  | .hlt | .jmp _ | .jze _ | .jnz _ | .lda _ | .sta _ | .get | .put | .del | .ldl _ | .fla | .invalid _ => false

/-- The instructions that write ZF: those that write AC or LI (R30, R45). -/
def writesZF (i : Instr) : Bool := writesAC i || writesLI i

/-- The instructions that write OF (R45). -/
def writesOF : Instr → Bool
  | .rol | .ror | .adc _ => true
  | .hlt | .jmp _ | .jze _ | .jnz _ | .lda _ | .sta _ | .get | .put | .ccf | .scf | .del | .ldl _ | .fla
  | .invalid _ => false

/-- A conditional jump whose condition is false in `s` (R112, R113). -/
def jumpFails (i : Instr) (s : State) : Prop :=
  (∃ a, i = .jze a ∧ s.zf = false) ∨ (∃ a, i = .jnz a ∧ s.zf = true)

/-- The next state of an answer, if it is one. -/
def nextOf (a : Answer) : Option State :=
  match a with
  | .next t => some t
  | .fault _ => none
  | .refused _ => none

end Sys2Proof.Machine
end

