-- ==== Sys2Proof/Certificates/Slice0/Obligations.lean ====
section
/-! DEFINITION. The statements for the provers. Each docstring names the rule of spec/ it comes from. A next state is
written out in full wherever it can be, so that the statement is at once the instruction's result, its completion and its
frame: a field that is not named is the old state's, and FR is packed from its four flags (HF, OF, ZF, CF). -/

open Sys2Proof Sys2Proof.Machine

/-! ## Encoding -/

/-- R71, R74, R76: the word of a well-formed instruction decodes to it, under every configuration, with every operand and
every value of an unused low nibble. -/
def Obligations.DecodeUndoesEncode : Prop :=
  ∀ (c : Config) (fill : Nibble) (i : Instr), i.wf c = true → decode c (encode c fill i) = i

/-- R74, R77: every word decodes to a well-formed instruction, and that instruction's word, with the word's own low nibble
where the instruction has no operand, is the word: no bit is dropped. The premise is that OPCODE_MAP numbers no opcode
twice (`Config.mapOk`). -/
def Obligations.EncodeUndoesDecode : Prop :=
  ∀ (c : Config) (w : Byte), c.mapOk = true →
    (decode c w).wf c = true ∧ encode c (loNibble w) (decode c w) = w

/-- R76: the decoder, with the gate on GET and PUT; and no other opcode depends on PORTS_ENABLED or any other input but
the map. -/
def Obligations.PortGateDecides : Prop :=
  ∀ (c : Config) (op x : Nibble),
    (op = 6 ∨ op = 7 → c.portsEnabled = false → decode c (joinNibbles op x) = .invalid op) ∧
    (c.opcodeMap = listingOrder → c.portsEnabled = true →
      decode c (joinNibbles 6 x) = .get ∧ decode c (joinNibbles 7 x) = .put) ∧
    ((op ≠ 6 ∧ op ≠ 7) ∨ c.portsEnabled = true →
      decode c (joinNibbles op x) = instrOf (c.opcodeMap[op.toNat]'op.isLt) x) ∧
    (op ≠ 6 → op ≠ 7 → ∀ d : Config, d.opcodeMap = c.opcodeMap →
      decode d (joinNibbles op x) = decode c (joinNibbles op x))

/-- Words of the opcode table and of 95_test_vectors.md, each written out. The opcode numbers above 1 are the spec's
decision D1 (log entry 9); the first sixteen are read with PORTS_ENABLED = true (log entry 7). -/
def Obligations.TableWordsDecode : Prop :=
  decodeTableWord 8 0b00000000 = some .hlt ∧ decodeTableWord 8 0b00011111 = some (.jmp 15) ∧
  decodeTableWord 8 0b00101001 = some (.jze 9) ∧ decodeTableWord 8 0b00110011 = some (.jnz 3) ∧
  decodeTableWord 8 0b01000101 = some (.lda 5) ∧ decodeTableWord 8 0b01011110 = some (.sta 14) ∧
  decodeTableWord 8 0b01101111 = some .get ∧ decodeTableWord 8 0b01110110 = some .put ∧
  decodeTableWord 8 0b10001000 = some .rol ∧ decodeTableWord 8 0b10011100 = some .ror ∧
  decodeTableWord 8 0b10101101 = some (.adc 13) ∧ decodeTableWord 8 0b10111010 = some .ccf ∧
  decodeTableWord 8 0b11001010 = some .scf ∧ decodeTableWord 8 0b11011110 = some .del ∧
  decodeTableWord 8 0b11101111 = some (.ldl 15) ∧ decodeTableWord 8 0b11110111 = some .fla ∧
  decode Config.standard 0b01101111 = .invalid 6 ∧ decode Config.standard 0b01110000 = .invalid 7

/-- R72: which instructions are 2 locations long; the format depends on nothing but the opcode nibble and the
configuration; the low nibble is the operand of a form that has one and is ignored by a 1-location form. -/
def Obligations.FormatsOfWords : Prop :=
  (∀ a : Nibble, (Instr.jmp a).width = 2 ∧ (Instr.jze a).width = 2 ∧ (Instr.jnz a).width = 2 ∧
    (Instr.lda a).width = 2 ∧ (Instr.sta a).width = 2 ∧ (Instr.adc a).width = 2 ∧ (Instr.ldl a).width = 2 ∧
    (Instr.invalid a).width = 2) ∧
  (Instr.hlt.width = 1 ∧ Instr.get.width = 1 ∧ Instr.put.width = 1 ∧ Instr.rol.width = 1 ∧ Instr.ror.width = 1 ∧
    Instr.ccf.width = 1 ∧ Instr.scf.width = 1 ∧ Instr.del.width = 1 ∧ Instr.fla.width = 1) ∧
  (∀ (c : Config) (op x y : Nibble),
    (decode c (joinNibbles op x)).width = (decode c (joinNibbles op y)).width ∧
    ((decode c (joinNibbles op x)).width = 1 →
      decode c (joinNibbles op y) = decode c (joinNibbles op x)) ∧
    (∀ a, (decode c (joinNibbles op x)).operand = some a → a = x))

/-- R80: assembled at a location, an instruction is what a fetch at that location decodes to, whatever follows a
1-location form. -/
def Obligations.AssembledInstructionIsFetched : Prop :=
  ∀ (s : State) (fill l : Nibble) (i : Instr), s.mem.loaded = true → i.wf s.cfg = true →
    ∃ w, fetchWord l { s with mem := assembleAt s.cfg fill l i s.mem } = .ok w ∧ decode s.cfg w = i

/-! ## The step -/

/-- R70: in a machine whose run goes on (R92), a step executes the instruction that the nibbles at IP and at
(IP + 1) mod 16 decode to; the loop adds nothing else around it (R91). -/
def Obligations.StepRunsDecodedInstruction : Prop :=
  ∀ (s : State) (h l : Nibble), s.Ready →
    s.mem.nibble s.ip.toNat = some h → s.mem.nibble (s.ip + 1).toNat = some l →
    step s = exec (decode s.cfg (joinNibbles h l)) s

/-- R92, R98: the guard, HF tested before the budget (the spec's decision D3); ending the run changes nothing but the
status, so exhaustion does not set HF. -/
def Obligations.LoopGuardEndsRun : Prop :=
  ∀ s : State, s.status = .running → s.mem.loaded = true →
    (s.hf = true → step s = .next { s with status := .halted }) ∧
    (s.hf = false → s.cfg.budget ≤ s.count → step s = .next { s with status := .exhausted })

/-- A run that has ended executes nothing more: the model's convention (log entry 4) for "Running the loop again on the
final state would execute nothing" (R180), and a Faulted status is never cleared (D19). -/
def Obligations.EndedRunExecutesNothing : Prop :=
  ∀ s : State, s.status ≠ .running → step s = .next s

/-- R192: a machine without a complete image is refused (the spec's decision D22; log entry 3); the reset machine is one. -/
def Obligations.MachineWithoutImageIsRefused : Prop :=
  (∀ s : State, s.status = .running → (∃ k, k < 8 ∧ s.mem.read k = none) → step s = .refused .noImage) ∧
  step State.reset = .refused .noImage

/-! ## Control transfer -/

/-- R110: HLT sets HF, keeps IP and is counted; the run then ends with status Halted. -/
def Obligations.HltHalts : Prop :=
  WordDecodes 0 (fun _ => .hlt) ∧
  ∀ s : State,
    exec .hlt s = .next { s with fr := packFlags true s.ov s.zf s.cf, count := s.count + 1 } ∧
    (s.status = .running → s.mem.loaded = true → ∀ t, exec .hlt s = .next t →
      step t = .next { t with status := .halted })

/-- R111: JMP goes to its operand, an absolute location, and is counted. -/
def Obligations.JmpGoesToOperand : Prop :=
  WordDecodes 1 .jmp ∧
  ∀ (s : State) (a : Nibble), exec (.jmp a) s = .next { s with ip := a, count := s.count + 1 }

/-- R112, R113: JZE and JNZ, taken and not taken; a not-taken jump is counted only when COUNT_NOT_TAKEN is true (R95). -/
def Obligations.ConditionalJumpsFollowZeroFlag : Prop :=
  WordDecodes 2 .jze ∧ WordDecodes 3 .jnz ∧
  ∀ (s : State) (a : Nibble),
    let taken : State := { s with ip := a, count := s.count + 1 }
    let notTaken : State :=
      { s with ip := s.ip + 2, count := if s.cfg.countNotTaken = true then s.count + 1 else s.count }
    (s.zf = true → exec (.jze a) s = .next taken ∧ exec (.jnz a) s = .next notTaken) ∧
    (s.zf = false → exec (.jze a) s = .next notTaken ∧ exec (.jnz a) s = .next taken)

/-! ## Loads and stores -/

/-- R120: LDA loads the nibble at its operand, sets ZF from it and advances IP by 2. -/
def Obligations.LdaLoadsAccumulator : Prop :=
  WordDecodes 4 .lda ∧
  ∀ (s : State) (a v : Nibble), s.mem.nibble a.toNat = some v →
    exec (.lda a) s = .next { s with
      ip := s.ip + 2, ac := v, fr := packFlags s.hf s.ov (decide (v = 0)) s.cf, count := s.count + 1 }

/-- R122: LDL loads the nibble at its operand into LI, sets ZF from LI and advances IP by 2. -/
def Obligations.LdlLoadsLoopIndex : Prop :=
  WordDecodes 14 .ldl ∧
  ∀ (s : State) (a v : Nibble), s.mem.nibble a.toNat = some v →
    exec (.ldl a) s = .next { s with
      ip := s.ip + 2, li := v, fr := packFlags s.hf s.ov (decide (v = 0)) s.cf, count := s.count + 1 }

/-- R121: STA stores AC in the one nibble location its operand names, and changes no flag. -/
def Obligations.StaStoresAccumulator : Prop :=
  WordDecodes 5 .sta ∧
  ∀ (s : State) (a : Nibble), s.mem.nibble (effectiveAddress a) ≠ none →
    ∃ m : Memory, exec (.sta a) s = .next { s with ip := s.ip + 2, mem := m, count := s.count + 1 } ∧
      m.nibble (effectiveAddress a) = some s.ac ∧
      ∀ n, n ≠ effectiveAddress a → m.nibble n = s.mem.nibble n

/-- R65: a fetch after a STA sees the store, in either nibble of the fetched word (the spec's decision D15). -/
def Obligations.FetchSeesStore : Prop :=
  ∀ (s t : State) (a n : Nibble) (w : Byte), exec (.sta a) s = .next t → fetchWord n t = .ok w →
    (n = a → hiNibble w = s.ac) ∧ (n + 1 = a → loNibble w = s.ac)

/-! ## Ports -/

/-- R130: GET pops the front of inQ into AC, or 0 from an empty queue, and sets ZF (from R30, as C9 resolves; the sentence
is "The ZF update comes from the accessor contract"). -/
def Obligations.GetPopsInputQueue : Prop :=
  PortWordDecodes 6 (fun _ => .get) ∧
  ∀ s : State,
    (s.inQ = [] → exec .get s = .next { s with
      ip := s.ip + 1, ac := 0, fr := packFlags s.hf s.ov true s.cf, count := s.count + 1 }) ∧
    (∀ v rest, s.inQ = v :: rest → v.toNat ≤ 15 → exec .get s = .next { s with
      ip := s.ip + 1, ac := BitVec.ofNat 4 v.toNat, inQ := rest,
      fr := packFlags s.hf s.ov (decide (v = 0)) s.cf, count := s.count + 1 })

/-- R130, R177: GET of an entry above 15 takes the fault ValueTooLarge with IP advanced and the entry popped, AC, ZF and
the count unchanged (the spec's decisions D6, D21 and D2). -/
def Obligations.GetOfLargeEntryFaults : Prop :=
  ∀ (s : State) (v : Byte) (rest : List Byte), s.inQ = v :: rest → 15 < v.toNat →
    exec .get s = .next { s with
      ip := s.ip + 1, inQ := rest, fr := packFlags true s.ov s.zf s.cf, status := .faulted (.valueTooLarge v.toNat) }

/-- R131: PUT puts AC at the front of outQ, which keeps its QCAP most recent entries (the literal reading is the spec's
decision D7); no flag changes. That outQ holds at most QCAP entries is part of the invariant (StepKeepsInvariant). -/
def Obligations.PutPushesOutputQueue : Prop :=
  PortWordDecodes 7 (fun _ => .put) ∧
  ∀ s : State, s.outQ.length ≤ s.cfg.qcap →
    exec .put s = .next { s with
      ip := s.ip + 1, outQ := (BitVec.ofNat 8 s.ac.toNat :: s.outQ).take s.cfg.qcap, count := s.count + 1 }

/-! ## Rotate, add and complement -/

/-- R140: ROL rotates the 5-bit value (CF, AC) left by 1; OF tells whether CF stayed, ZF whether AC is 0. -/
def Obligations.RolRotatesCarryAndAccumulator : Prop :=
  WordDecodes 8 (fun _ => .rol) ∧
  ∀ s : State,
    let r : BitVec 5 := (BitVec.ofBool s.cf ++ s.ac).rotateLeft 1
    exec .rol s = .next { s with
      ip := s.ip + 1, ac := r.setWidth 4,
      fr := packFlags s.hf (s.cf == r.getLsbD 4) (decide (r.setWidth 4 = 0#4)) (r.getLsbD 4), count := s.count + 1 }

/-- R141: ROR rotates the 5-bit value (CF, AC) right by 1; CF takes the old AC[0], AC[3] the old CF. -/
def Obligations.RorRotatesCarryAndAccumulator : Prop :=
  WordDecodes 9 (fun _ => .ror) ∧
  ∀ s : State,
    let v : Nibble := BitVec.ofNat 4 (s.ac.toNat / 2 + 8 * s.cf.toNat)
    let carry : Bool := decide (s.ac.toNat % 2 = 1)
    exec .ror s = .next { s with
      ip := s.ip + 1, ac := v, fr := packFlags s.hf (s.cf == carry) (decide (v = 0)) carry, count := s.count + 1 }

/-- R140, R141: "ROR undoes ROL", and five ROLs are a full cycle, for AC and CF. -/
def Obligations.RotatesUndoEachOther : Prop :=
  (∀ s t u : State, exec .rol s = .next t → exec .ror t = .next u → u.ac = s.ac ∧ u.cf = s.cf) ∧
  (∀ s t : State, exec .ror s = .next t → ∀ u, exec .rol t = .next u → u.ac = s.ac ∧ u.cf = s.cf) ∧
  (∀ s t u v w x : State, exec .rol s = .next t → exec .rol t = .next u → exec .rol u = .next v →
    exec .rol v = .next w → exec .rol w = .next x → x.ac = s.ac ∧ x.cf = s.cf ∧ x.ip = s.ip + 5)

/-- R142: ADC adds AC, the nibble at its operand and CF; CF is bit 4 of the sum and OF tells whether CF stayed. -/
def Obligations.AdcAddsMemoryAndCarry : Prop :=
  WordDecodes 10 .adc ∧
  ∀ (s : State) (a m : Nibble), s.mem.nibble a.toNat = some m →
    let sum : Nat := s.ac.toNat + m.toNat + s.cf.toNat
    exec (.adc a) s = .next { s with
      ip := s.ip + 2, ac := BitVec.ofNat 4 (sum % 16),
      fr := packFlags s.hf (s.cf == decide (16 ≤ sum)) (decide (sum % 16 = 0)) (decide (16 ≤ sum)),
      count := s.count + 1 }

/-- R143: FLA complements AC's 4 bits, so that AC becomes 15 - AC; ZF is set from the new AC, that is if AC was 15. -/
def Obligations.FlaComplementsAccumulator : Prop :=
  WordDecodes 15 (fun _ => .fla) ∧
  ∀ s : State, exec .fla s = .next { s with
    ip := s.ip + 1, ac := BitVec.ofNat 4 (15 - s.ac.toNat),
    fr := packFlags s.hf s.ov (decide (s.ac = 15)) s.cf, count := s.count + 1 }

/-! ## Carry flag and loop index -/

/-- R150, R151: CCF and SCF write CF and no other flag, and are counted. -/
def Obligations.CarryFlagInstructions : Prop :=
  WordDecodes 11 (fun _ => .ccf) ∧ WordDecodes 12 (fun _ => .scf) ∧
  ∀ s : State,
    exec .ccf s = .next { s with
      ip := s.ip + 1, fr := packFlags s.hf s.ov s.zf false, count := s.count + 1 } ∧
    exec .scf s = .next { s with
      ip := s.ip + 1, fr := packFlags s.hf s.ov s.zf true, count := s.count + 1 }

/-- R152: DEL decrements LI modulo 16 and sets ZF from the new LI, that is if LI was 1; no borrow is written. -/
def Obligations.DelDecrementsLoopIndex : Prop :=
  WordDecodes 13 (fun _ => .del) ∧
  ∀ s : State, exec .del s = .next { s with
    ip := s.ip + 1, li := BitVec.ofNat 4 ((s.li.toNat + 15) % 16),
    fr := packFlags s.hf s.ov (decide (s.li = 1)) s.cf, count := s.count + 1 }

/-! ## The sentinel, faults and results -/

/-- R160, R172, R177: a disabled GET or PUT decodes to INVALID, which takes the fault InvalidInstruction: HF and the
status change and nothing else does, not IP (the spec's decision D4) and not the count (D2). -/
def Obligations.InvalidTakesFault : Prop :=
  ∀ (s : State) (code : Nibble),
    exec (.invalid code) s = .next { s with
      fr := packFlags true s.ov s.zf s.cf, status := .faulted (.invalidInstruction code) } ∧
    (s.cfg.portsEnabled = false → code = 6 ∨ code = 7 →
      ∀ x, decode s.cfg (joinNibbles code x) = .invalid code)

/-- R53, R171 to R175: the only faults a step takes are InvalidInstruction of a disabled port opcode and ValueTooLarge of
an entry above 15 at the front of inQ; OutOfBounds and MathError are taken by none (derived in the spec; D20). -/
def Obligations.OnlyTwoFaultsAreReachable : Prop :=
  ∀ (s t : State) (f : Fault), s.status = .running → step s = .next t → t.status = .faulted f →
    (∃ code, f = .invalidInstruction code ∧ (code = 6 ∨ code = 7) ∧ s.cfg.portsEnabled = false) ∨
    (∃ v rest, s.inQ = v :: rest ∧ 15 < v.toNat ∧ f = .valueTooLarge v.toNat)

/-- R35, R130: queue entries that are nibbles stay so, and then no step takes ValueTooLarge. -/
def Obligations.NibbleQueuesStayNibble : Prop :=
  ∀ s t : State, s.queuesInRange → step s = .next t →
    t.queuesInRange ∧ (s.status = .running → ∀ v, t.status ≠ .faulted (.valueTooLarge v))

/-- R96, R97, R98, R104, R179: what the run returns when a step ends it, with the count unchanged by that step (D2). -/
def Obligations.EndedRunResult : Prop :=
  ∀ s t : State, s.status = .running → step s = .next t →
    (t.status = .running → t.result = none) ∧
    (t.status ≠ .running → t.count = s.count) ∧
    (t.status = .halted ∨ t.status = .exhausted → t.result = some (.ok s.count)) ∧
    (∀ code, t.status = .faulted (.invalidInstruction code) → s.cfg.surfaceInvalid = true →
      t.result = some (.err (.invalidInstruction code) s.count)) ∧
    (∀ code, t.status = .faulted (.invalidInstruction code) → s.cfg.surfaceInvalid = false →
      t.result = some (.ok s.count)) ∧
    (∀ v, t.status = .faulted (.valueTooLarge v) → t.result = some (.err (.valueTooLarge v) s.count))

/-- No step answers a fault of the host's interface: a fault of the spec is taken (log entry 5; R177). -/
def Obligations.NoStepAnswersFault : Prop :=
  ∀ (s : State) (f : Fault), step s ≠ .fault f

/-! ## Frames -/

/-- R34, R58: an instruction that is not STA leaves every memory byte as it was. -/
def Obligations.OnlyStaWritesMemory : Prop :=
  ∀ (i : Instr) (s t : State), exec i s = .next t → (∀ a, i ≠ .sta a) → ∀ k, t.mem.read k = s.mem.read k

/-- R121, R52: STA leaves every register, flag, queue, the status and the configuration as they were, every byte but the
one its effective address is in, and that byte's other nibble. -/
def Obligations.StaFrame : Prop :=
  ∀ (s t : State) (a : Nibble), exec (.sta a) s = .next t →
    t.li = s.li ∧ t.ac = s.ac ∧ t.fr = s.fr ∧ t.inQ = s.inQ ∧ t.outQ = s.outQ ∧ t.status = s.status ∧ t.cfg = s.cfg ∧
    (∀ k, k ≠ effectiveAddress a / 2 → t.mem.read k = s.mem.read k) ∧
    (∀ n, n ≠ effectiveAddress a → t.mem.nibble n = s.mem.nibble n)

/-- R45: an instruction that the table does not give a register or flag as written leaves it as it was; HF is written by
HLT and by a fault only (R25). -/
def Obligations.RegisterAndFlagFrame : Prop :=
  ∀ (i : Instr) (s t : State), exec i s = .next t →
    (writesAC i = false → t.ac = s.ac) ∧
    (writesLI i = false → t.li = s.li) ∧
    (writesCF i = false → t.cf = s.cf) ∧
    (writesZF i = false → t.zf = s.zf) ∧
    (writesOF i = false → t.ov = s.ov) ∧
    (i ≠ .hlt → s.status = .running → t.status = .running → t.hf = s.hf)

/-- R35, R36, R37: only GET changes inQ, and by no more than removing its front entry; only PUT changes outQ. -/
def Obligations.QueueFrame : Prop :=
  ∀ (i : Instr) (s t : State), exec i s = .next t →
    (i ≠ .get → t.inQ = s.inQ) ∧ (i = .get → t.inQ = s.inQ.tail) ∧ (i ≠ .put → t.outQ = s.outQ)

/-- R38, R95, R97: an instruction that runs on is counted once, unless it is a not-taken jump and COUNT_NOT_TAKEN is false;
a failing instruction is not counted (the spec's decisions D2 and D29). -/
def Obligations.CounterAdvance : Prop :=
  ∀ (i : Instr) (s t : State), s.status = .running → exec i s = .next t →
    (t.status = .running ∨ ∃ f, t.status = .faulted f) ∧
    (∀ f, t.status = .faulted f → t.count = s.count) ∧
    (t.status = .running → (jumpFails i s ∧ s.cfg.countNotTaken = false → t.count = s.count) ∧
      (¬ jumpFails i s ∨ s.cfg.countNotTaken = true → t.count = s.count + 1))

/-- R39: no step changes the configuration (held in the state by log entry 1). -/
def Obligations.ConfigurationIsConstant : Prop :=
  ∀ s t : State, step s = .next t → t.cfg = s.cfg

/-! ## Memory -/

/-- R50, R51: MemRead of an existing location answers its half of the byte, and of any other raises OutOfBounds. -/
def Obligations.MemReadReadsNibble : Prop :=
  ∀ (s : State) (n : Nat),
    (16 ≤ n → memRead n s = .error (.raise (.outOfBounds n))) ∧
    (n < 16 → ∀ b, s.mem.read (n / 2) = some b → ∃ v : Nibble, memRead n s = .ok v ∧
      (n % 2 = 0 → v.toNat = b.toNat / 16) ∧ (n % 2 = 1 → v.toNat = b.toNat % 16))

/-- R52: MemWrite writes only the targeted half of its byte; each failed check raises its fault, and where both fail one of
the two is raised (the order is open, log entry 10). -/
def Obligations.MemWriteWritesHalfByte : Prop :=
  ∀ (s : State) (n v : Nat),
    (n < 16 → v ≤ 15 → ∀ b, s.mem.read (n / 2) = some b → ∃ m : Memory,
      memWrite n v s = .ok { s with mem := m } ∧
      (∀ k, k ≠ n / 2 → m.read k = s.mem.read k) ∧
      ∃ d, m.read (n / 2) = some d ∧
        (n % 2 = 0 → d.toNat = 16 * v + b.toNat % 16) ∧ (n % 2 = 1 → d.toNat = 16 * (b.toNat / 16) + v)) ∧
    (16 ≤ n → v ≤ 15 → memWrite n v s = .error (.raise (.outOfBounds n))) ∧
    (n < 16 → 15 < v → memWrite n v s = .error (.raise (.valueTooLarge v))) ∧
    (16 ≤ n → 15 < v → memWrite n v s = .error (.raise (.outOfBounds n)) ∨
      memWrite n v s = .error (.raise (.valueTooLarge v)))

/-- R54, R55: FetchWord of an even location is its byte, of an odd one the low nibble of its byte and the high nibble of
the next, byte 0 after byte 7; and it agrees with two nibble reads. -/
def Obligations.FetchWordPacksNibbles : Prop :=
  ∀ (s : State) (n : Nibble),
    (n.toNat % 2 = 0 → ∀ b, s.mem.read (n.toNat / 2) = some b → fetchWord n s = .ok b) ∧
    (n.toNat % 2 = 1 → ∀ b d, s.mem.read (n.toNat / 2) = some b → s.mem.read ((n.toNat / 2 + 1) % 8) = some d →
      ∃ w, fetchWord n s = .ok w ∧ w.toNat = 16 * (b.toNat % 16) + d.toNat / 16) ∧
    (∀ h l, memRead n.toNat s = .ok h → memRead ((n.toNat + 1) % 16) s = .ok l →
      ∃ w, fetchWord n s = .ok w ∧ w.toNat = 16 * h.toNat + l.toNat)

/-! ## Registers -/

/-- R29, R30: a checked write of a value above 15 fails; of any other it writes the register, and with AC or LI also ZF. -/
def Obligations.CheckedRegisterWrites : Prop :=
  ∀ (s : State) (v : Nat),
    (15 < v → ∀ r, setReg r v s = .error (.valueTooLarge v)) ∧
    (v ≤ 15 →
      setReg .ac v s = .ok { s with
        ac := BitVec.ofNat 4 v, fr := packFlags s.hf s.ov (decide (v = 0)) s.cf } ∧
      setReg .li v s = .ok { s with
        li := BitVec.ofNat 4 v, fr := packFlags s.hf s.ov (decide (v = 0)) s.cf } ∧
      setReg .ip v s = .ok { s with ip := BitVec.ofNat 4 v } ∧
      setReg .fr v s = .ok { s with fr := BitVec.ofNat 4 v })

/-- R31: the increment and decrement accessors wrap modulo 16; those of LI and AC recompute ZF, those of IP touch no flag. -/
def Obligations.AccessorsWrap : Prop :=
  ∀ s : State,
    s.incIP = { s with ip := BitVec.ofNat 4 ((s.ip.toNat + 1) % 16) } ∧
    s.decIP = { s with ip := BitVec.ofNat 4 ((s.ip.toNat + 15) % 16) } ∧
    s.incLI = { s with
      li := BitVec.ofNat 4 ((s.li.toNat + 1) % 16), fr := packFlags s.hf s.ov (decide (s.li = 15)) s.cf } ∧
    s.decLI = { s with
      li := BitVec.ofNat 4 ((s.li.toNat + 15) % 16), fr := packFlags s.hf s.ov (decide (s.li = 1)) s.cf } ∧
    s.incAC = { s with
      ac := BitVec.ofNat 4 ((s.ac.toNat + 1) % 16), fr := packFlags s.hf s.ov (decide (s.ac = 15)) s.cf } ∧
    s.decAC = { s with
      ac := BitVec.ofNat 4 ((s.ac.toNat + 15) % 16), fr := packFlags s.hf s.ov (decide (s.ac = 1)) s.cf }

/-! ## Image, load and snapshot -/

/-- R42: the register encoding round-trips both ways. -/
def Obligations.RegisterBytesRoundTrip : Prop :=
  (∀ (s : State) (b : Byte × Byte), (s.withRegBytes b).regBytes = b) ∧
  (∀ s t : State, t.withRegBytes s.regBytes = { t with ip := s.ip, li := s.li, fr := s.fr, ac := s.ac })

/-- R195: from fewer than 10 bytes no machine is constructed and nothing runs; bytes after the tenth are ignored. -/
def Obligations.ImageIsFirstTenBytes : Prop :=
  ∀ (c : Config) (payload : List Byte),
    (payload.length < 10 → State.load c payload = none ∧ ∀ fuel, session c payload fuel = .tooShort) ∧
    (10 ≤ payload.length → State.load c payload = State.load c (payload.take 10) ∧
      ∃ s, State.load c payload = some s)

/-- R41, R43, R191: what a load leaves in every part of the state; FR is taken as given, ZF included (the spec's decision
D23); the queues take the seeds (D11). -/
def Obligations.LoadTakesImage : Prop :=
  ∀ (c : Config) (image : List Byte) (s : State), image.length = 10 → State.load c image = some s →
    (∀ b, image[0]? = some b → s.ip.toNat = b.toNat / 16 ∧ s.li.toNat = b.toNat % 16) ∧
    (∀ b, image[1]? = some b → s.fr.toNat = b.toNat / 16 ∧ s.ac.toNat = b.toNat % 16) ∧
    (∀ k, k < 8 → s.mem.read k = image[2 + k]?) ∧
    s.inQ = c.inputSeed ∧ s.outQ = c.outputSeed ∧ s.count = 0 ∧ s.status = .running ∧ s.cfg = c

/-- R41, R187: the snapshot of a freshly loaded machine gives back the image and the seeds. -/
def Obligations.SnapshotReturnsImage : Prop :=
  ∀ (c : Config) (r0 r1 : Byte) (bytes : List Byte), bytes.length = 8 →
    ∃ s, State.load c (r0 :: r1 :: bytes) = some s ∧
      s.snapshot = some
        { reg0 := r0, reg1 := r1, mem := bytes, inQ := c.inputSeed, outQ := c.outputSeed, count := 0 }

/-! ## Invariants -/

/-- Every step keeps the invariant: memory canonical, both queues within QCAP (R35, R36), the count within the budget
(R38), and the status in agreement with HF and the count (R40, R200). -/
def Obligations.StepKeepsInvariant : Prop :=
  ∀ s t : State, s.Inv → step s = .next t → t.Inv

/-- The invariant holds at reset, before any image, with the values R43, R191 and R192 give. -/
def Obligations.ResetMeetsInvariant : Prop :=
  State.reset.Inv ∧ State.reset.ip = 0 ∧ State.reset.li = 0 ∧ State.reset.ac = 0 ∧ State.reset.fr = 0 ∧
  State.reset.count = 0 ∧ State.reset.status = .running ∧
  State.reset.inQ = State.reset.cfg.inputSeed ∧ State.reset.outQ = State.reset.cfg.outputSeed

/-- R194: a load under a launchable configuration meets the invariant, with an image and nibble queues. -/
def Obligations.LoadMeetsInvariant : Prop :=
  ∀ (c : Config) (payload : List Byte) (s : State), c.launchable = true → State.load c payload = some s →
    s.Inv ∧ s.mem.loaded = true ∧ s.queuesInRange

/-- A machine with an image always steps, and keeps its image: no step of it is refused or stuck (R53, R77). -/
def Obligations.LoadedMachineAlwaysSteps : Prop :=
  ∀ s : State, s.mem.loaded = true → ∃ t, step s = .next t ∧ t.mem.loaded = true

/-- R28: nothing clears HF; only HLT or a fault sets it; with HF set no instruction executes. -/
def Obligations.HaltFlagIsNeverCleared : Prop :=
  (∀ s t : State, step s = .next t → s.hf = true → t.hf = true) ∧
  (∀ s t : State, step s = .next t → s.hf = false → t.hf = true →
    (∃ f, t.status = .faulted f) ∨ ∃ w, fetchWord s.ip s = .ok w ∧ decode s.cfg w = .hlt) ∧
  (∀ s : State, s.status = .running → s.mem.loaded = true → s.hf = true →
    step s = .next { s with status := .halted }) ∧
  (∀ s t : State, exec .hlt s = .next t → t.hf = true) ∧
  (∀ (f : Fault) (s : State), (takeFault f s).hf = true)

/-! ## Noninterference -/

/-- R27: ROL, ROR and ADC set OF to (old CF == new CF), and no instruction reads OF: two states that differ in OF alone
are taken to states that differ in OF alone. -/
def Obligations.OverflowFlagIsNeverRead : Prop :=
  (∀ (i : Instr) (s t : State), writesOF i = true → exec i s = .next t → t.ov = (s.cf == t.cf)) ∧
  (∀ (i : Instr) (s t : State) (b : Bool), exec i s = .next t →
    ∃ u, exec i (s.setOV b) = .next u ∧ u.setOV false = t.setOV false)

/-- R36, R38: no instruction reads the counter or the output queue: with other values of both, the rest of the next state
is the same. -/
def Obligations.CounterAndOutputAreNeverRead : Prop :=
  ∀ (i : Instr) (s t : State) (n : Nat) (q : List Byte), exec i s = .next t →
    ∃ u, exec i { s with count := n, outQ := q } = .next u ∧ { u with count := t.count, outQ := t.outQ } = t

/-! ## Runs -/

/-- R100: when COUNT_NOT_TAKEN is true, every run ends within its remaining budget of instructions, and one iteration of
the guard. It rests on log entry 4 (the model's choice, unsafe for a claim that counts the steps of a whole run, as this
one does): the guard's last iteration is a step of its own, and a run that ended sooner answers its own state until the
bound is reached. -/
def Obligations.CountedRunsEnd : Prop :=
  ∀ s : State, s.mem.loaded = true → s.cfg.countNotTaken = true →
    ∃ t, iterate (s.cfg.budget - s.count + 1) s = .next t ∧ t.status ≠ .running

/-- R100 (b): eight steps that leave the run going and the count unchanged bring back the whole state, and the run never
ends. It counts iterations of a run that has not ended; log entry 4 (the model's choice) enters only in that a run going
after the eighth iteration was going after each one before, since an ended state answers itself. -/
def Obligations.EightUncountedStepsRepeat : Prop :=
  ∀ s t : State, iterate 8 s = .next t → t.status = .running → t.count = s.count →
    t = s ∧ ∀ n, ∃ u, iterate n s = .next u ∧ u.status = .running

/-- R100: a run that ends does so within 8 iterations for each instruction left to count, and 8 more. It rests on log
entry 4 (the model's choice, unsafe for a claim that counts the steps of a whole run, as this one does): the bound counts
the guard's last iteration, and a run that ended sooner answers its own state until the bound is reached. -/
def Obligations.EndingRunsEndSoon : Prop :=
  ∀ (s : State) (n : Nat) (t : State), iterate n s = .next t → t.status ≠ .running →
    ∃ u, iterate (8 * (s.cfg.budget - s.count) + 8) s = .next u ∧ u.status ≠ .running

/-- R101: a JMP to itself is cut off exactly at the budget, with IP, HF and everything else as they were. The iteration
that gives Exhausted is the guard's own, a step by log entry 4 (the model's choice, unsafe for a claim that counts the
steps of a whole run, as this one does). -/
def Obligations.SelfJumpIsCutOffAtBudget : Prop :=
  ∀ s : State, s.Ready → s.cfg.opcodeMap = listingOrder →
    s.mem.nibble s.ip.toNat = some 1 → s.mem.nibble (s.ip + 1).toNat = some s.ip →
    iterate (s.cfg.budget - s.count) s = .next { s with count := s.cfg.budget } ∧
    iterate (s.cfg.budget - s.count + 1) s = .next { s with count := s.cfg.budget, status := .exhausted }
end

