-- ==== Sys2Proof/Laws/Decode.lean ====
section
/-! SUPPORT. The nibbles of a byte, the opcode map as a numbering, and the gate under one opcode nibble. -/

namespace Sys2Proof

@[simp] theorem hiNibble_join (h l : Nibble) : hiNibble (joinNibbles h l) = h := by
  revert h l; decide

@[simp] theorem loNibble_join (h l : Nibble) : loNibble (joinNibbles h l) = l := by
  revert h l; decide

@[simp] theorem join_hi_lo (b : Byte) : joinNibbles (hiNibble b) (loNibble b) = b := by
  revert b; decide

theorem toNat_joinNibbles (h l : Nibble) : (joinNibbles h l).toNat = 16 * h.toNat + l.toNat := by
  revert h l; decide

/-- The opcode at the number of an opcode of the map is that opcode. -/
theorem opcodeAt_numberOf {c : Config} {o : Opcode} (h : c.opcodeMap.toList.contains o = true) :
    opcodeAt c (c.numberOf o) = o := by
  have lt : c.opcodeMap.toList.idxOf o < 16 := by
    simpa using List.idxOf_lt_length_of_mem (List.contains_iff_mem.1 h)
  have toNat : (c.numberOf o).toNat = c.opcodeMap.toList.idxOf o := by
    simpa [Config.numberOf] using Nat.mod_eq_of_lt lt
  have get := List.getElem_idxOf (xs := c.opcodeMap.toList) (x := o) (by simpa using lt)
  simp only [opcodeAt, toNat]
  exact get

/-- The number of the opcode at a nibble is that nibble, when no opcode has two numbers. -/
theorem numberOf_opcodeAt {c : Config} (h : c.mapOk = true) (op : Nibble) : c.numberOf (opcodeAt c op) = op := by
  have nodup : c.opcodeMap.toList.Nodup := by simpa [Config.mapOk] using h
  have lt : op.toNat < c.opcodeMap.toList.length := by simpa using op.isLt
  have get : opcodeAt c op = c.opcodeMap.toList[op.toNat]'lt := by simp [opcodeAt]
  rw [Config.numberOf, get, nodup.idxOf_getElem]
  simp

theorem opcodeAt_mem (c : Config) (op : Nibble) : c.opcodeMap.toList.contains (opcodeAt c op) = true := by
  simp [opcodeAt]

/-- The opcode of the instruction an opcode stands for. -/
@[simp] theorem opcode_instrOf (o : Opcode) (a : Nibble) : (instrOf o a).opcode = some o := by
  cases o <;> rfl

end Sys2Proof
end

