-- ==== Sys2Proof/Laws/State.lean ====
section
/-! SUPPORT. What each update of the state does to each field, one lemma per field per update, so that no proof unfolds a
record update. -/

namespace Sys2Proof.Machine

/-! ## setCount -/

@[simp] theorem State.setCount_ip (s : State) (n : Nat) : (s.setCount n).ip = s.ip := rfl
@[simp] theorem State.setCount_li (s : State) (n : Nat) : (s.setCount n).li = s.li := rfl
@[simp] theorem State.setCount_ac (s : State) (n : Nat) : (s.setCount n).ac = s.ac := rfl
@[simp] theorem State.setCount_fr (s : State) (n : Nat) : (s.setCount n).fr = s.fr := rfl
@[simp] theorem State.setCount_mem (s : State) (n : Nat) : (s.setCount n).mem = s.mem := rfl
@[simp] theorem State.setCount_inQ (s : State) (n : Nat) : (s.setCount n).inQ = s.inQ := rfl
@[simp] theorem State.setCount_outQ (s : State) (n : Nat) : (s.setCount n).outQ = s.outQ := rfl
@[simp] theorem State.setCount_count (s : State) (n : Nat) : (s.setCount n).count = n := rfl
@[simp] theorem State.setCount_status (s : State) (n : Nat) : (s.setCount n).status = s.status := rfl
@[simp] theorem State.setCount_cfg (s : State) (n : Nat) : (s.setCount n).cfg = s.cfg := rfl

/-! ## setStatus -/

@[simp] theorem State.setStatus_ip (s : State) (x : Status) : (s.setStatus x).ip = s.ip := rfl
@[simp] theorem State.setStatus_li (s : State) (x : Status) : (s.setStatus x).li = s.li := rfl
@[simp] theorem State.setStatus_ac (s : State) (x : Status) : (s.setStatus x).ac = s.ac := rfl
@[simp] theorem State.setStatus_fr (s : State) (x : Status) : (s.setStatus x).fr = s.fr := rfl
@[simp] theorem State.setStatus_mem (s : State) (x : Status) : (s.setStatus x).mem = s.mem := rfl
@[simp] theorem State.setStatus_inQ (s : State) (x : Status) : (s.setStatus x).inQ = s.inQ := rfl
@[simp] theorem State.setStatus_outQ (s : State) (x : Status) : (s.setStatus x).outQ = s.outQ := rfl
@[simp] theorem State.setStatus_count (s : State) (x : Status) : (s.setStatus x).count = s.count := rfl
@[simp] theorem State.setStatus_status (s : State) (x : Status) : (s.setStatus x).status = x := rfl
@[simp] theorem State.setStatus_cfg (s : State) (x : Status) : (s.setStatus x).cfg = s.cfg := rfl

/-! ## setMem -/

@[simp] theorem State.setMem_ip (s : State) (m : Memory) : (s.setMem m).ip = s.ip := rfl
@[simp] theorem State.setMem_li (s : State) (m : Memory) : (s.setMem m).li = s.li := rfl
@[simp] theorem State.setMem_ac (s : State) (m : Memory) : (s.setMem m).ac = s.ac := rfl
@[simp] theorem State.setMem_fr (s : State) (m : Memory) : (s.setMem m).fr = s.fr := rfl
@[simp] theorem State.setMem_mem (s : State) (m : Memory) : (s.setMem m).mem = m := rfl
@[simp] theorem State.setMem_inQ (s : State) (m : Memory) : (s.setMem m).inQ = s.inQ := rfl
@[simp] theorem State.setMem_outQ (s : State) (m : Memory) : (s.setMem m).outQ = s.outQ := rfl
@[simp] theorem State.setMem_count (s : State) (m : Memory) : (s.setMem m).count = s.count := rfl
@[simp] theorem State.setMem_status (s : State) (m : Memory) : (s.setMem m).status = s.status := rfl
@[simp] theorem State.setMem_cfg (s : State) (m : Memory) : (s.setMem m).cfg = s.cfg := rfl

/-! ## advanceIP -/

@[simp] theorem State.advanceIP_ip (s : State) (n : Nibble) : (s.advanceIP n).ip = s.ip + n := rfl
@[simp] theorem State.advanceIP_li (s : State) (n : Nibble) : (s.advanceIP n).li = s.li := rfl
@[simp] theorem State.advanceIP_ac (s : State) (n : Nibble) : (s.advanceIP n).ac = s.ac := rfl
@[simp] theorem State.advanceIP_fr (s : State) (n : Nibble) : (s.advanceIP n).fr = s.fr := rfl
@[simp] theorem State.advanceIP_mem (s : State) (n : Nibble) : (s.advanceIP n).mem = s.mem := rfl
@[simp] theorem State.advanceIP_inQ (s : State) (n : Nibble) : (s.advanceIP n).inQ = s.inQ := rfl
@[simp] theorem State.advanceIP_outQ (s : State) (n : Nibble) : (s.advanceIP n).outQ = s.outQ := rfl
@[simp] theorem State.advanceIP_count (s : State) (n : Nibble) : (s.advanceIP n).count = s.count := rfl
@[simp] theorem State.advanceIP_status (s : State) (n : Nibble) : (s.advanceIP n).status = s.status := rfl
@[simp] theorem State.advanceIP_cfg (s : State) (n : Nibble) : (s.advanceIP n).cfg = s.cfg := rfl

/-! ## jumpTo -/

@[simp] theorem State.jumpTo_ip (s : State) (n : Nibble) : (s.jumpTo n).ip = n := rfl
@[simp] theorem State.jumpTo_li (s : State) (n : Nibble) : (s.jumpTo n).li = s.li := rfl
@[simp] theorem State.jumpTo_ac (s : State) (n : Nibble) : (s.jumpTo n).ac = s.ac := rfl
@[simp] theorem State.jumpTo_fr (s : State) (n : Nibble) : (s.jumpTo n).fr = s.fr := rfl
@[simp] theorem State.jumpTo_mem (s : State) (n : Nibble) : (s.jumpTo n).mem = s.mem := rfl
@[simp] theorem State.jumpTo_inQ (s : State) (n : Nibble) : (s.jumpTo n).inQ = s.inQ := rfl
@[simp] theorem State.jumpTo_outQ (s : State) (n : Nibble) : (s.jumpTo n).outQ = s.outQ := rfl
@[simp] theorem State.jumpTo_count (s : State) (n : Nibble) : (s.jumpTo n).count = s.count := rfl
@[simp] theorem State.jumpTo_status (s : State) (n : Nibble) : (s.jumpTo n).status = s.status := rfl
@[simp] theorem State.jumpTo_cfg (s : State) (n : Nibble) : (s.jumpTo n).cfg = s.cfg := rfl

/-! ## setCF -/

@[simp] theorem State.setCF_ip (s : State) (b : Bool) : (s.setCF b).ip = s.ip := rfl
@[simp] theorem State.setCF_li (s : State) (b : Bool) : (s.setCF b).li = s.li := rfl
@[simp] theorem State.setCF_ac (s : State) (b : Bool) : (s.setCF b).ac = s.ac := rfl
@[simp] theorem State.setCF_fr (s : State) (b : Bool) : (s.setCF b).fr = putBit s.fr 0 b := rfl
@[simp] theorem State.setCF_mem (s : State) (b : Bool) : (s.setCF b).mem = s.mem := rfl
@[simp] theorem State.setCF_inQ (s : State) (b : Bool) : (s.setCF b).inQ = s.inQ := rfl
@[simp] theorem State.setCF_outQ (s : State) (b : Bool) : (s.setCF b).outQ = s.outQ := rfl
@[simp] theorem State.setCF_count (s : State) (b : Bool) : (s.setCF b).count = s.count := rfl
@[simp] theorem State.setCF_status (s : State) (b : Bool) : (s.setCF b).status = s.status := rfl
@[simp] theorem State.setCF_cfg (s : State) (b : Bool) : (s.setCF b).cfg = s.cfg := rfl

/-! ## setZF -/

@[simp] theorem State.setZF_ip (s : State) (b : Bool) : (s.setZF b).ip = s.ip := rfl
@[simp] theorem State.setZF_li (s : State) (b : Bool) : (s.setZF b).li = s.li := rfl
@[simp] theorem State.setZF_ac (s : State) (b : Bool) : (s.setZF b).ac = s.ac := rfl
@[simp] theorem State.setZF_fr (s : State) (b : Bool) : (s.setZF b).fr = putBit s.fr 1 b := rfl
@[simp] theorem State.setZF_mem (s : State) (b : Bool) : (s.setZF b).mem = s.mem := rfl
@[simp] theorem State.setZF_inQ (s : State) (b : Bool) : (s.setZF b).inQ = s.inQ := rfl
@[simp] theorem State.setZF_outQ (s : State) (b : Bool) : (s.setZF b).outQ = s.outQ := rfl
@[simp] theorem State.setZF_count (s : State) (b : Bool) : (s.setZF b).count = s.count := rfl
@[simp] theorem State.setZF_status (s : State) (b : Bool) : (s.setZF b).status = s.status := rfl
@[simp] theorem State.setZF_cfg (s : State) (b : Bool) : (s.setZF b).cfg = s.cfg := rfl

/-! ## setOV -/

@[simp] theorem State.setOV_ip (s : State) (b : Bool) : (s.setOV b).ip = s.ip := rfl
@[simp] theorem State.setOV_li (s : State) (b : Bool) : (s.setOV b).li = s.li := rfl
@[simp] theorem State.setOV_ac (s : State) (b : Bool) : (s.setOV b).ac = s.ac := rfl
@[simp] theorem State.setOV_fr (s : State) (b : Bool) : (s.setOV b).fr = putBit s.fr 2 b := rfl
@[simp] theorem State.setOV_mem (s : State) (b : Bool) : (s.setOV b).mem = s.mem := rfl
@[simp] theorem State.setOV_inQ (s : State) (b : Bool) : (s.setOV b).inQ = s.inQ := rfl
@[simp] theorem State.setOV_outQ (s : State) (b : Bool) : (s.setOV b).outQ = s.outQ := rfl
@[simp] theorem State.setOV_count (s : State) (b : Bool) : (s.setOV b).count = s.count := rfl
@[simp] theorem State.setOV_status (s : State) (b : Bool) : (s.setOV b).status = s.status := rfl
@[simp] theorem State.setOV_cfg (s : State) (b : Bool) : (s.setOV b).cfg = s.cfg := rfl

/-! ## setHF -/

@[simp] theorem State.setHF_ip (s : State) (b : Bool) : (s.setHF b).ip = s.ip := rfl
@[simp] theorem State.setHF_li (s : State) (b : Bool) : (s.setHF b).li = s.li := rfl
@[simp] theorem State.setHF_ac (s : State) (b : Bool) : (s.setHF b).ac = s.ac := rfl
@[simp] theorem State.setHF_fr (s : State) (b : Bool) : (s.setHF b).fr = putBit s.fr 3 b := rfl
@[simp] theorem State.setHF_mem (s : State) (b : Bool) : (s.setHF b).mem = s.mem := rfl
@[simp] theorem State.setHF_inQ (s : State) (b : Bool) : (s.setHF b).inQ = s.inQ := rfl
@[simp] theorem State.setHF_outQ (s : State) (b : Bool) : (s.setHF b).outQ = s.outQ := rfl
@[simp] theorem State.setHF_count (s : State) (b : Bool) : (s.setHF b).count = s.count := rfl
@[simp] theorem State.setHF_status (s : State) (b : Bool) : (s.setHF b).status = s.status := rfl
@[simp] theorem State.setHF_cfg (s : State) (b : Bool) : (s.setHF b).cfg = s.cfg := rfl

/-! ## writeAC -/

@[simp] theorem State.writeAC_ip (s : State) (v : Nibble) : (s.writeAC v).ip = s.ip := rfl
@[simp] theorem State.writeAC_li (s : State) (v : Nibble) : (s.writeAC v).li = s.li := rfl
@[simp] theorem State.writeAC_ac (s : State) (v : Nibble) : (s.writeAC v).ac = v := rfl
@[simp] theorem State.writeAC_fr (s : State) (v : Nibble) : (s.writeAC v).fr = putBit s.fr 1 (zeroFlag v) := rfl
@[simp] theorem State.writeAC_mem (s : State) (v : Nibble) : (s.writeAC v).mem = s.mem := rfl
@[simp] theorem State.writeAC_inQ (s : State) (v : Nibble) : (s.writeAC v).inQ = s.inQ := rfl
@[simp] theorem State.writeAC_outQ (s : State) (v : Nibble) : (s.writeAC v).outQ = s.outQ := rfl
@[simp] theorem State.writeAC_count (s : State) (v : Nibble) : (s.writeAC v).count = s.count := rfl
@[simp] theorem State.writeAC_status (s : State) (v : Nibble) : (s.writeAC v).status = s.status := rfl
@[simp] theorem State.writeAC_cfg (s : State) (v : Nibble) : (s.writeAC v).cfg = s.cfg := rfl

/-! ## writeLI -/

@[simp] theorem State.writeLI_ip (s : State) (v : Nibble) : (s.writeLI v).ip = s.ip := rfl
@[simp] theorem State.writeLI_li (s : State) (v : Nibble) : (s.writeLI v).li = v := rfl
@[simp] theorem State.writeLI_ac (s : State) (v : Nibble) : (s.writeLI v).ac = s.ac := rfl
@[simp] theorem State.writeLI_fr (s : State) (v : Nibble) : (s.writeLI v).fr = putBit s.fr 1 (zeroFlag v) := rfl
@[simp] theorem State.writeLI_mem (s : State) (v : Nibble) : (s.writeLI v).mem = s.mem := rfl
@[simp] theorem State.writeLI_inQ (s : State) (v : Nibble) : (s.writeLI v).inQ = s.inQ := rfl
@[simp] theorem State.writeLI_outQ (s : State) (v : Nibble) : (s.writeLI v).outQ = s.outQ := rfl
@[simp] theorem State.writeLI_count (s : State) (v : Nibble) : (s.writeLI v).count = s.count := rfl
@[simp] theorem State.writeLI_status (s : State) (v : Nibble) : (s.writeLI v).status = s.status := rfl
@[simp] theorem State.writeLI_cfg (s : State) (v : Nibble) : (s.writeLI v).cfg = s.cfg := rfl

/-! ## writeResult -/

@[simp] theorem State.writeResult_ip (s : State) (v : Nibble) (c : Bool) : (s.writeResult v c).ip = s.ip := rfl
@[simp] theorem State.writeResult_li (s : State) (v : Nibble) (c : Bool) : (s.writeResult v c).li = s.li := rfl
@[simp] theorem State.writeResult_ac (s : State) (v : Nibble) (c : Bool) : (s.writeResult v c).ac = v := rfl
@[simp] theorem State.writeResult_fr (s : State) (v : Nibble) (c : Bool) : (s.writeResult v c).fr = putBit (putBit (putBit s.fr 1 (zeroFlag v)) 0 c) 2 (overflowFlag s.cf c) := rfl
@[simp] theorem State.writeResult_mem (s : State) (v : Nibble) (c : Bool) : (s.writeResult v c).mem = s.mem := rfl
@[simp] theorem State.writeResult_inQ (s : State) (v : Nibble) (c : Bool) : (s.writeResult v c).inQ = s.inQ := rfl
@[simp] theorem State.writeResult_outQ (s : State) (v : Nibble) (c : Bool) : (s.writeResult v c).outQ = s.outQ := rfl
@[simp] theorem State.writeResult_count (s : State) (v : Nibble) (c : Bool) : (s.writeResult v c).count = s.count := rfl
@[simp] theorem State.writeResult_status (s : State) (v : Nibble) (c : Bool) : (s.writeResult v c).status = s.status := rfl
@[simp] theorem State.writeResult_cfg (s : State) (v : Nibble) (c : Bool) : (s.writeResult v c).cfg = s.cfg := rfl

/-! ## pushOutput -/

@[simp] theorem pushOutput_ip (s : State) (v : Nibble) : (pushOutput v s).ip = s.ip := rfl
@[simp] theorem pushOutput_li (s : State) (v : Nibble) : (pushOutput v s).li = s.li := rfl
@[simp] theorem pushOutput_ac (s : State) (v : Nibble) : (pushOutput v s).ac = s.ac := rfl
@[simp] theorem pushOutput_fr (s : State) (v : Nibble) : (pushOutput v s).fr = s.fr := rfl
@[simp] theorem pushOutput_mem (s : State) (v : Nibble) : (pushOutput v s).mem = s.mem := rfl
@[simp] theorem pushOutput_inQ (s : State) (v : Nibble) : (pushOutput v s).inQ = s.inQ := rfl
@[simp] theorem pushOutput_outQ (s : State) (v : Nibble) : (pushOutput v s).outQ = trimQueue s.cfg.qcap (v.zeroExtend 8 :: s.outQ) := rfl
@[simp] theorem pushOutput_count (s : State) (v : Nibble) : (pushOutput v s).count = s.count := rfl
@[simp] theorem pushOutput_status (s : State) (v : Nibble) : (pushOutput v s).status = s.status := rfl
@[simp] theorem pushOutput_cfg (s : State) (v : Nibble) : (pushOutput v s).cfg = s.cfg := rfl

/-! ## takeFault -/

@[simp] theorem takeFault_ip (s : State) (f : Fault) : (takeFault f s).ip = s.ip := rfl
@[simp] theorem takeFault_li (s : State) (f : Fault) : (takeFault f s).li = s.li := rfl
@[simp] theorem takeFault_ac (s : State) (f : Fault) : (takeFault f s).ac = s.ac := rfl
@[simp] theorem takeFault_fr (s : State) (f : Fault) : (takeFault f s).fr = putBit s.fr 3 true := rfl
@[simp] theorem takeFault_mem (s : State) (f : Fault) : (takeFault f s).mem = s.mem := rfl
@[simp] theorem takeFault_inQ (s : State) (f : Fault) : (takeFault f s).inQ = s.inQ := rfl
@[simp] theorem takeFault_outQ (s : State) (f : Fault) : (takeFault f s).outQ = s.outQ := rfl
@[simp] theorem takeFault_count (s : State) (f : Fault) : (takeFault f s).count = s.count := rfl
@[simp] theorem takeFault_status (s : State) (f : Fault) : (takeFault f s).status = .faulted f := rfl
@[simp] theorem takeFault_cfg (s : State) (f : Fault) : (takeFault f s).cfg = s.cfg := rfl

/-! ## withRegBytes -/

@[simp] theorem State.withRegBytes_ip (s : State) (b : Byte × Byte) : (s.withRegBytes b).ip = hiNibble b.1 := rfl
@[simp] theorem State.withRegBytes_li (s : State) (b : Byte × Byte) : (s.withRegBytes b).li = loNibble b.1 := rfl
@[simp] theorem State.withRegBytes_ac (s : State) (b : Byte × Byte) : (s.withRegBytes b).ac = loNibble b.2 := rfl
@[simp] theorem State.withRegBytes_fr (s : State) (b : Byte × Byte) : (s.withRegBytes b).fr = hiNibble b.2 := rfl
@[simp] theorem State.withRegBytes_mem (s : State) (b : Byte × Byte) : (s.withRegBytes b).mem = s.mem := rfl
@[simp] theorem State.withRegBytes_inQ (s : State) (b : Byte × Byte) : (s.withRegBytes b).inQ = s.inQ := rfl
@[simp] theorem State.withRegBytes_outQ (s : State) (b : Byte × Byte) : (s.withRegBytes b).outQ = s.outQ := rfl
@[simp] theorem State.withRegBytes_count (s : State) (b : Byte × Byte) : (s.withRegBytes b).count = s.count := rfl
@[simp] theorem State.withRegBytes_status (s : State) (b : Byte × Byte) : (s.withRegBytes b).status = s.status := rfl
@[simp] theorem State.withRegBytes_cfg (s : State) (b : Byte × Byte) : (s.withRegBytes b).cfg = s.cfg := rfl

/-! ## popInput: only inQ can change -/

@[simp] theorem popInput_ip (s : State) : (popInput s).2.ip = s.ip := by
  unfold popInput; split <;> rfl
@[simp] theorem popInput_li (s : State) : (popInput s).2.li = s.li := by
  unfold popInput; split <;> rfl
@[simp] theorem popInput_ac (s : State) : (popInput s).2.ac = s.ac := by
  unfold popInput; split <;> rfl
@[simp] theorem popInput_fr (s : State) : (popInput s).2.fr = s.fr := by
  unfold popInput; split <;> rfl
@[simp] theorem popInput_mem (s : State) : (popInput s).2.mem = s.mem := by
  unfold popInput; split <;> rfl
@[simp] theorem popInput_inQ (s : State) : (popInput s).2.inQ = s.inQ.tail := by
  unfold popInput; split <;> simp_all
@[simp] theorem popInput_outQ (s : State) : (popInput s).2.outQ = s.outQ := by
  unfold popInput; split <;> rfl
@[simp] theorem popInput_count (s : State) : (popInput s).2.count = s.count := by
  unfold popInput; split <;> rfl
@[simp] theorem popInput_status (s : State) : (popInput s).2.status = s.status := by
  unfold popInput; split <;> rfl
@[simp] theorem popInput_cfg (s : State) : (popInput s).2.cfg = s.cfg := by
  unfold popInput; split <;> rfl

@[simp] theorem popInput_value (s : State) : (popInput s).1 = s.inQ.headD 0 := by
  unfold popInput; split <;> simp_all

end Sys2Proof.Machine
end

