-- ==== Sys2Proof/Laws/Flags.lean ====
section
/-! SUPPORT. The bits of FR: what writing one bit does to each bit, the same for every update of the state, and FR as the
nibble packed from its four flags. -/

namespace Sys2Proof.Machine

theorem getLsbD_putBit (v : Nibble) (i j : Nat) (b : Bool) (hi : i < 4 := by decide) (hj : j < 4 := by decide) :
    (putBit v i b).getLsbD j = if j = i then b else v.getLsbD j := by
  have all : ∀ (v : Nibble) (i j : Fin 4) (b : Bool),
      (putBit v i b).getLsbD j = if j.val = i.val then b else v.getLsbD j := by decide
  exact all v ⟨i, hi⟩ ⟨j, hj⟩ b

@[simp] theorem putBit_packFlags_cf (h o z c b : Bool) : putBit (packFlags h o z c) 0 b = packFlags h o z b := by
  revert h o z c b; decide

@[simp] theorem putBit_packFlags_zf (h o z c b : Bool) : putBit (packFlags h o z c) 1 b = packFlags h o b c := by
  revert h o z c b; decide

@[simp] theorem putBit_packFlags_ov (h o z c b : Bool) : putBit (packFlags h o z c) 2 b = packFlags h b z c := by
  revert h o z c b; decide

@[simp] theorem putBit_packFlags_hf (h o z c b : Bool) : putBit (packFlags h o z c) 3 b = packFlags b o z c := by
  revert h o z c b; decide

/-- FR is the nibble packed from the four flags (R25). -/
theorem State.fr_eq_packFlags (s : State) : s.fr = packFlags s.hf s.ov s.zf s.cf := by
  have all : ∀ v : Nibble, v = packFlags (v.getLsbD 3) (v.getLsbD 2) (v.getLsbD 1) (v.getLsbD 0) := by decide
  exact all s.fr

/-- FR with one bit written is the pack of that flag and the other three as they were. -/
theorem State.putBit_fr (s : State) (b : Bool) :
    putBit s.fr 0 b = packFlags s.hf s.ov s.zf b ∧ putBit s.fr 1 b = packFlags s.hf s.ov b s.cf ∧
    putBit s.fr 2 b = packFlags s.hf b s.zf s.cf ∧ putBit s.fr 3 b = packFlags b s.ov s.zf s.cf := by
  rw [s.fr_eq_packFlags]
  simp

/-- The bits of a packed nibble are the flags (R25). -/
theorem getLsbD_packFlags (h o z c : Bool) :
    (packFlags h o z c).getLsbD 0 = c ∧ (packFlags h o z c).getLsbD 1 = z ∧
    (packFlags h o z c).getLsbD 2 = o ∧ (packFlags h o z c).getLsbD 3 = h := by
  revert h o z c; decide

/-! ## The four flags after each update -/

@[simp] theorem State.setCount_cf (s : State) (n : Nat) : (s.setCount n).cf = s.cf := rfl
@[simp] theorem State.setCount_zf (s : State) (n : Nat) : (s.setCount n).zf = s.zf := rfl
@[simp] theorem State.setCount_ov (s : State) (n : Nat) : (s.setCount n).ov = s.ov := rfl
@[simp] theorem State.setCount_hf (s : State) (n : Nat) : (s.setCount n).hf = s.hf := rfl
@[simp] theorem State.setStatus_cf (s : State) (x : Status) : (s.setStatus x).cf = s.cf := rfl
@[simp] theorem State.setStatus_zf (s : State) (x : Status) : (s.setStatus x).zf = s.zf := rfl
@[simp] theorem State.setStatus_ov (s : State) (x : Status) : (s.setStatus x).ov = s.ov := rfl
@[simp] theorem State.setStatus_hf (s : State) (x : Status) : (s.setStatus x).hf = s.hf := rfl
@[simp] theorem State.setMem_cf (s : State) (m : Memory) : (s.setMem m).cf = s.cf := rfl
@[simp] theorem State.setMem_zf (s : State) (m : Memory) : (s.setMem m).zf = s.zf := rfl
@[simp] theorem State.setMem_ov (s : State) (m : Memory) : (s.setMem m).ov = s.ov := rfl
@[simp] theorem State.setMem_hf (s : State) (m : Memory) : (s.setMem m).hf = s.hf := rfl
@[simp] theorem State.setCF_cf (s : State) (b : Bool) : (s.setCF b).cf = b := getLsbD_putBit s.fr 0 0 b
@[simp] theorem State.setCF_zf (s : State) (b : Bool) : (s.setCF b).zf = s.zf := getLsbD_putBit s.fr 0 1 b
@[simp] theorem State.setCF_ov (s : State) (b : Bool) : (s.setCF b).ov = s.ov := getLsbD_putBit s.fr 0 2 b
@[simp] theorem State.setCF_hf (s : State) (b : Bool) : (s.setCF b).hf = s.hf := getLsbD_putBit s.fr 0 3 b
@[simp] theorem State.setZF_cf (s : State) (b : Bool) : (s.setZF b).cf = s.cf := getLsbD_putBit s.fr 1 0 b
@[simp] theorem State.setZF_zf (s : State) (b : Bool) : (s.setZF b).zf = b := getLsbD_putBit s.fr 1 1 b
@[simp] theorem State.setZF_ov (s : State) (b : Bool) : (s.setZF b).ov = s.ov := getLsbD_putBit s.fr 1 2 b
@[simp] theorem State.setZF_hf (s : State) (b : Bool) : (s.setZF b).hf = s.hf := getLsbD_putBit s.fr 1 3 b
@[simp] theorem State.setOV_cf (s : State) (b : Bool) : (s.setOV b).cf = s.cf := getLsbD_putBit s.fr 2 0 b
@[simp] theorem State.setOV_zf (s : State) (b : Bool) : (s.setOV b).zf = s.zf := getLsbD_putBit s.fr 2 1 b
@[simp] theorem State.setOV_ov (s : State) (b : Bool) : (s.setOV b).ov = b := getLsbD_putBit s.fr 2 2 b
@[simp] theorem State.setOV_hf (s : State) (b : Bool) : (s.setOV b).hf = s.hf := getLsbD_putBit s.fr 2 3 b
@[simp] theorem State.setHF_cf (s : State) (b : Bool) : (s.setHF b).cf = s.cf := getLsbD_putBit s.fr 3 0 b
@[simp] theorem State.setHF_zf (s : State) (b : Bool) : (s.setHF b).zf = s.zf := getLsbD_putBit s.fr 3 1 b
@[simp] theorem State.setHF_ov (s : State) (b : Bool) : (s.setHF b).ov = s.ov := getLsbD_putBit s.fr 3 2 b
@[simp] theorem State.setHF_hf (s : State) (b : Bool) : (s.setHF b).hf = b := getLsbD_putBit s.fr 3 3 b
@[simp] theorem State.advanceIP_cf (s : State) (n : Nibble) : (s.advanceIP n).cf = s.cf := rfl
@[simp] theorem State.advanceIP_zf (s : State) (n : Nibble) : (s.advanceIP n).zf = s.zf := rfl
@[simp] theorem State.advanceIP_ov (s : State) (n : Nibble) : (s.advanceIP n).ov = s.ov := rfl
@[simp] theorem State.advanceIP_hf (s : State) (n : Nibble) : (s.advanceIP n).hf = s.hf := rfl
@[simp] theorem State.jumpTo_cf (s : State) (n : Nibble) : (s.jumpTo n).cf = s.cf := rfl
@[simp] theorem State.jumpTo_zf (s : State) (n : Nibble) : (s.jumpTo n).zf = s.zf := rfl
@[simp] theorem State.jumpTo_ov (s : State) (n : Nibble) : (s.jumpTo n).ov = s.ov := rfl
@[simp] theorem State.jumpTo_hf (s : State) (n : Nibble) : (s.jumpTo n).hf = s.hf := rfl
@[simp] theorem State.writeAC_cf (s : State) (v : Nibble) : (s.writeAC v).cf = s.cf := getLsbD_putBit s.fr 1 0 (zeroFlag v)
@[simp] theorem State.writeAC_zf (s : State) (v : Nibble) : (s.writeAC v).zf = zeroFlag v := getLsbD_putBit s.fr 1 1 (zeroFlag v)
@[simp] theorem State.writeAC_ov (s : State) (v : Nibble) : (s.writeAC v).ov = s.ov := getLsbD_putBit s.fr 1 2 (zeroFlag v)
@[simp] theorem State.writeAC_hf (s : State) (v : Nibble) : (s.writeAC v).hf = s.hf := getLsbD_putBit s.fr 1 3 (zeroFlag v)
@[simp] theorem State.writeLI_cf (s : State) (v : Nibble) : (s.writeLI v).cf = s.cf := getLsbD_putBit s.fr 1 0 (zeroFlag v)
@[simp] theorem State.writeLI_zf (s : State) (v : Nibble) : (s.writeLI v).zf = zeroFlag v := getLsbD_putBit s.fr 1 1 (zeroFlag v)
@[simp] theorem State.writeLI_ov (s : State) (v : Nibble) : (s.writeLI v).ov = s.ov := getLsbD_putBit s.fr 1 2 (zeroFlag v)
@[simp] theorem State.writeLI_hf (s : State) (v : Nibble) : (s.writeLI v).hf = s.hf := getLsbD_putBit s.fr 1 3 (zeroFlag v)
@[simp] theorem State.writeResult_cf (s : State) (v : Nibble) (c : Bool) : (s.writeResult v c).cf = c := by
  simp [State.writeResult]
@[simp] theorem State.writeResult_zf (s : State) (v : Nibble) (c : Bool) : (s.writeResult v c).zf = zeroFlag v := by
  simp [State.writeResult]
@[simp] theorem State.writeResult_ov (s : State) (v : Nibble) (c : Bool) : (s.writeResult v c).ov = overflowFlag s.cf c := by
  simp [State.writeResult]
@[simp] theorem State.writeResult_hf (s : State) (v : Nibble) (c : Bool) : (s.writeResult v c).hf = s.hf := by
  simp [State.writeResult]
@[simp] theorem pushOutput_cf (s : State) (v : Nibble) : (pushOutput v s).cf = s.cf := rfl
@[simp] theorem pushOutput_zf (s : State) (v : Nibble) : (pushOutput v s).zf = s.zf := rfl
@[simp] theorem pushOutput_ov (s : State) (v : Nibble) : (pushOutput v s).ov = s.ov := rfl
@[simp] theorem pushOutput_hf (s : State) (v : Nibble) : (pushOutput v s).hf = s.hf := rfl
@[simp] theorem takeFault_cf (s : State) (f : Fault) : (takeFault f s).cf = s.cf := getLsbD_putBit s.fr 3 0 true
@[simp] theorem takeFault_zf (s : State) (f : Fault) : (takeFault f s).zf = s.zf := getLsbD_putBit s.fr 3 1 true
@[simp] theorem takeFault_ov (s : State) (f : Fault) : (takeFault f s).ov = s.ov := getLsbD_putBit s.fr 3 2 true
@[simp] theorem takeFault_hf (s : State) (f : Fault) : (takeFault f s).hf = true := getLsbD_putBit s.fr 3 3 true
@[simp] theorem popInput_cf (s : State) : (popInput s).2.cf = s.cf := by
  simp [State.cf]
@[simp] theorem popInput_zf (s : State) : (popInput s).2.zf = s.zf := by
  simp [State.zf]
@[simp] theorem popInput_ov (s : State) : (popInput s).2.ov = s.ov := by
  simp [State.ov]
@[simp] theorem popInput_hf (s : State) : (popInput s).2.hf = s.hf := by
  simp [State.hf]

end Sys2Proof.Machine
end

