-- ==== Sys2Proof/Laws/Memory.lean ====
section
/-! SUPPORT. The laws of memory: a read after a write, every operation keeps the canonical form, and a loaded memory has a
value at every location. -/

namespace Sys2Proof.Machine

@[simp] theorem Memory.read_write_same (m : Memory) (k : Nat) (b : Byte) : (m.write k b).read k = some b := by
  induction m with
  | nil => simp [Memory.write, Memory.read]
  | cons c rest ih =>
    obtain ⟨a, v⟩ := c
    simp only [Memory.write]
    split
    · simp [Memory.read]
    · split
      · simp [Memory.read]
      · simp [Memory.read, *]

theorem Memory.read_write_other (m : Memory) {j k : Nat} (b : Byte) (h : j ≠ k) :
    (m.write k b).read j = m.read j := by
  induction m with
  | nil => simp [Memory.write, Memory.read, h.symm]
  | cons c rest ih =>
    obtain ⟨a, v⟩ := c
    simp only [Memory.write]
    split
    · simp [Memory.read, h.symm]
    · split
      · subst_vars
        simp [Memory.read, h.symm]
      · simp [Memory.read, ih]

/-- A write adds no index but its own. -/
theorem Memory.mem_write {m : Memory} {k : Nat} {b : Byte} {c : Host.Cell} (h : c ∈ m.write k b) :
    c = (k, b) ∨ c ∈ m := by
  induction m with
  | nil => exact .inl (by simpa [Memory.write] using h)
  | cons d rest ih =>
    obtain ⟨a, v⟩ := d
    simp only [Memory.write] at h
    split at h
    · simpa using h
    · split at h
      · simp only [List.mem_cons] at h ⊢
        tauto
      · simp only [List.mem_cons] at h ⊢
        rcases h with h | h
        · tauto
        · have := ih h
          tauto

/-- The canonical form, as a statement about the cells. -/
theorem Memory.wf_iff (m : Memory) :
    m.wf = true ↔ m.Pairwise (fun c d => c.1 < d.1) ∧ ∀ c ∈ m, c.1 < 8 := by
  simp [Memory.wf, List.pairwise_map]

theorem Memory.rising_write {m : Memory} (k : Nat) (b : Byte) (h : m.Pairwise (fun c d => c.1 < d.1)) :
    (m.write k b).Pairwise (fun c d => c.1 < d.1) := by
  induction m with
  | nil => simp [Memory.write]
  | cons c rest ih =>
    obtain ⟨a, v⟩ := c
    obtain ⟨head, tail⟩ := List.pairwise_cons.1 h
    simp only [Memory.write]
    split
    next lt =>
      refine List.pairwise_cons.2 ⟨fun d hd => ?_, h⟩
      rcases List.mem_cons.1 hd with rfl | hd
      · exact lt
      · exact lt.trans (head d hd)
    next ge =>
      split
      next eq => exact List.pairwise_cons.2 ⟨fun d hd => eq ▸ head d hd, tail⟩
      next ne =>
        refine List.pairwise_cons.2 ⟨fun d hd => ?_, ih tail⟩
        rcases Memory.mem_write hd with rfl | hd
        · exact lt_of_le_of_ne (not_lt.1 ge) ne
        · exact head d hd

/-- A write to an existing byte keeps the canonical form. -/
theorem Memory.wf_write {m : Memory} {k : Nat} (b : Byte) (h : m.wf = true) (hk : k < 8) :
    (m.write k b).wf = true := by
  rw [Memory.wf_iff] at h ⊢
  refine ⟨Memory.rising_write k b h.1, fun c hc => ?_⟩
  rcases Memory.mem_write hc with rfl | hc
  · exact hk
  · exact h.2 c hc

/-- Placing a nibble keeps the canonical form. -/
theorem Memory.wf_putNibble {m : Memory} {n : Nat} (v : Nibble) (h : m.wf = true) (hn : n < 16) :
    (Memory.putNibble n v m).wf = true :=
  Memory.wf_write _ h (by omega)

/-- A step of filling keeps the canonical form, so filling does. -/
theorem Memory.wf_filled {m : Memory} (h : m.wf = true) : m.filled.wf = true := by
  have all : ∀ (ks : List Nat) (m : Memory), (∀ k ∈ ks, k < 8) → m.wf = true →
      (ks.foldl (fun m k => if (m.read k).isSome then m else m.write k 0) m).wf = true := by
    intro ks
    induction ks with
    | nil => exact fun m _ h => h
    | cons k ks ih =>
      intro m hk h
      refine ih _ (fun j hj => hk j (List.mem_cons_of_mem _ hj)) ?_
      dsimp only
      split
      · exact h
      · exact Memory.wf_write _ h (hk k (List.mem_cons_self ..))
  exact all _ m (fun k hk => List.mem_range.1 hk) h

theorem Memory.loaded_iff (m : Memory) : m.loaded = true ↔ ∀ k < 8, ∃ b, m.read k = some b := by
  simp [Memory.loaded, Option.isSome_iff_exists]

/-- A write takes no byte's value away. -/
theorem Memory.loaded_write {m : Memory} (k : Nat) (b : Byte) (h : m.loaded = true) :
    (m.write k b).loaded = true := by
  rw [Memory.loaded_iff] at h ⊢
  intro j hj
  by_cases e : j = k
  · exact ⟨b, by simp [e]⟩
  · simpa [Memory.read_write_other m b e] using h j hj

/-- Filling gives every byte a value. -/
theorem Memory.loaded_filled (m : Memory) : m.filled.loaded = true := by
  have keeps : ∀ (k : Nat) (m : Memory), ∀ j, (m.read j).isSome →
      ((if (m.read k).isSome then m else m.write k 0 : Memory).read j).isSome := by
    intro k m j hj
    split
    · exact hj
    · by_cases e : j = k
      · simp [e]
      · rwa [Memory.read_write_other m 0 e]
  have all : ∀ (ks : List Nat) (m : Memory), ∀ j, (j ∈ ks ∨ (m.read j).isSome) →
      ((ks.foldl (fun m k => if (m.read k).isSome then m else m.write k 0) m : Memory).read j).isSome := by
    intro ks
    induction ks with
    | nil => intro m j h; simpa using h
    | cons k ks ih =>
      intro m j h
      refine ih _ j ?_
      rcases h with h | h
      · rcases List.mem_cons.1 h with rfl | h
        · right
          dsimp only
          split
          · assumption
          · simp
        · exact .inl h
      · exact .inr (keeps k m j h)
  simp only [Memory.loaded, List.all_eq_true]
  exact fun k hk => all _ m k (.inl hk)

/-- A loaded memory has a value at every location. -/
theorem Memory.nibble_of_loaded {m : Memory} (h : m.loaded = true) (n : Nat) (hn : n < 16) :
    ∃ v, m.nibble n = some v := by
  obtain ⟨b, hb⟩ := (Memory.loaded_iff m).1 h (n / 2) (by omega)
  exact ⟨nibbleAt n b, by simp [Memory.nibble, hb]⟩

/-- The empty memory of the reset state has the canonical form. -/
theorem Memory.wf_reset : State.reset.mem.wf = true := by decide

end Sys2Proof.Machine
end

