-- ==== Sys2Proof/Laws/Ops.lean ====
section
/-! SUPPORT. One lemma per shared operation that says what it can answer; later proofs cite these instead of unfolding. -/

namespace Sys2Proof.Machine

/-! ## Memory accesses -/

/-- MemRead at a location that has a value answers it (R51). -/
theorem memRead_eq_ok {n : Nat} {s : State} {v : Nibble} (hn : n < 16) (h : s.mem.nibble n = some v) :
    memRead n s = .ok v := by
  have : ¬ 8 ≤ n / 2 := by omega
  simp [memRead, this, h]

/-- MemRead answers only the value of a location that exists. -/
theorem memRead_ok {n : Nat} {s : State} {v : Nibble} (h : memRead n s = .ok v) :
    n < 16 ∧ s.mem.nibble n = some v := by
  unfold memRead at h
  split at h
  · cases h
  · split at h
    · cases h
      exact ⟨by omega, ‹_›⟩
    · cases h

/-- What MemRead answers when it gives no value: out of bounds, or a byte without a value. -/
theorem memRead_error {n : Nat} {s : State} {e : Stop} (h : memRead n s = .error e) :
    (16 ≤ n ∧ e = .raise (.outOfBounds n)) ∨ (n < 16 ∧ s.mem.nibble n = none ∧ e = .refuse .noImage) := by
  unfold memRead at h
  split at h
  · cases h
    exact .inl ⟨by omega, rfl⟩
  · split at h
    · cases h
    · cases h
      exact .inr ⟨by omega, ‹_›, rfl⟩

/-- MemRead depends on memory alone. -/
theorem memRead_congr {s t : State} (n : Nat) (h : t.mem = s.mem) : memRead n t = memRead n s := by
  simp [memRead, h]

/-- MemWrite of a nibble to a byte that has a value writes the targeted half of that byte (R52). -/
theorem memWrite_eq_ok {n v : Nat} {s : State} {b : Byte} (hn : n < 16) (hv : v < 16)
    (h : s.mem.read (n / 2) = some b) :
    memWrite n v s = .ok (s.setMem (s.mem.write (n / 2) (replaceNibble n (BitVec.ofNat 4 v) b))) := by
  have h1 : ¬ 8 ≤ n / 2 := by omega
  have h2 : ¬ 15 < v := by omega
  simp [memWrite, memWriteFault, h1, h2, h]

/-- MemWrite answers a state only for an existing location and a nibble, and then changes only that byte. -/
theorem memWrite_ok {n v : Nat} {s t : State} (h : memWrite n v s = .ok t) :
    n < 16 ∧ v < 16 ∧ ∃ b, s.mem.read (n / 2) = some b ∧
      t = s.setMem (s.mem.write (n / 2) (replaceNibble n (BitVec.ofNat 4 v) b)) := by
  unfold memWrite at h
  split at h
  · cases h
  next noFault =>
    split at h
    next b hb =>
      cases h
      unfold memWriteFault at noFault
      split at noFault
      · split at noFault
        · split at noFault <;> cases noFault
        · cases noFault
      · split at noFault
        · cases noFault
        · exact ⟨by omega, by omega, b, hb, rfl⟩
    · cases h

/-- MemWrite of a nibble to a location gives no state only for want of an image. -/
theorem memWrite_error {n v : Nat} {s : State} {e : Stop} (hn : n < 16) (hv : v < 16)
    (h : memWrite n v s = .error e) : s.mem.read (n / 2) = none ∧ e = .refuse .noImage := by
  have h1 : ¬ 8 ≤ n / 2 := by omega
  have h2 : ¬ 15 < v := by omega
  simp only [memWrite, memWriteFault, h1, h2, if_false] at h
  split at h
  · cases h
  · cases h
    exact ⟨‹_›, rfl⟩

/-- The fetched word is the nibble at the location and the one after it (R54). -/
theorem fetchWord_eq_ok {n h l : Nibble} {s : State} (hh : s.mem.nibble n.toNat = some h)
    (hl : s.mem.nibble (n + 1).toNat = some l) : fetchWord n s = .ok (joinNibbles h l) := by
  simp only [fetchWord, memRead_eq_ok n.isLt hh, memRead_eq_ok (n + 1).isLt hl]

/-- In a machine with an image every fetch answers a word. -/
theorem fetchWord_of_loaded {s : State} (h : s.mem.loaded = true) (n : Nibble) : ∃ w, fetchWord n s = .ok w := by
  obtain ⟨x, hx⟩ := Memory.nibble_of_loaded h n.toNat n.isLt
  obtain ⟨y, hy⟩ := Memory.nibble_of_loaded h (n + 1).toNat (n + 1).isLt
  exact ⟨_, fetchWord_eq_ok hx hy⟩

/-! ## The halves of a byte -/

@[simp] theorem nibbleAt_replaceNibble_same (n : Nat) (v : Nibble) (b : Byte) :
    nibbleAt n (replaceNibble n v b) = v := by
  unfold nibbleAt replaceNibble
  split <;> simp

theorem nibbleAt_replaceNibble_other {n j : Nat} (v : Nibble) (b : Byte) (h : j % 2 ≠ n % 2) :
    nibbleAt j (replaceNibble n v b) = nibbleAt j b := by
  unfold nibbleAt replaceNibble
  split <;> split <;> first | omega | simp

/-- A location written with a byte's new half reads the value, and every other location reads as before (R50, R52). -/
theorem nibble_write_replaceNibble {m : Memory} {n : Nat} {b : Byte} (v : Nibble) (h : m.read (n / 2) = some b)
    (j : Nat) :
    (m.write (n / 2) (replaceNibble n v b)).nibble j = if j = n then some v else m.nibble j := by
  by_cases same : j / 2 = n / 2
  · rw [Memory.nibble, same, Memory.read_write_same]
    split
    next e => simp [e]
    next ne =>
      have odd : j % 2 ≠ n % 2 := by omega
      simp [Memory.nibble, same, h, nibbleAt_replaceNibble_other v b odd]
  · have ne : j ≠ n := fun e => same (by rw [e])
    simp [Memory.nibble, Memory.read_write_other m _ same, ne]

/-- A nibble placed in a loaded memory is read at its location, and every other location reads as before. -/
theorem nibble_putNibble {m : Memory} {n : Nat} (v : Nibble) (h : m.loaded = true) (hn : n < 16) (j : Nat) :
    (Memory.putNibble n v m).nibble j = if j = n then some v else m.nibble j := by
  obtain ⟨b, hb⟩ := (Memory.loaded_iff m).1 h (n / 2) (by omega)
  simp only [Memory.putNibble, hb, Option.getD_some]
  exact nibble_write_replaceNibble v hb j

/-- The location after a location is another one. -/
theorem succ_toNat_ne (n : Nibble) : (n + 1).toNat ≠ n.toNat := by
  revert n; decide

/-! ## Registers and queues -/

/-- A checked write of a value above 15 fails (R29). -/
theorem setReg_tooLarge (r : Reg) {v : Nat} (s : State) (h : 15 < v) :
    setReg r v s = .error (.valueTooLarge v) := by
  simp [setReg, checkNibble, h]

/-- A checked write of AC with a nibble's value (R29, R30). -/
theorem setReg_ac {v : Nat} (s : State) (h : v ≤ 15) : setReg .ac v s = .ok (s.writeAC (BitVec.ofNat 4 v)) := by
  have : ¬ 15 < v := by omega
  simp [setReg, checkNibble, this]

/-- PUT's trimming keeps a queue that grew by one within the capacity (R36). -/
theorem length_trimQueue_cons_le {cap : Nat} {q : List Byte} (v : Byte) (h : q.length ≤ cap) :
    (trimQueue cap (v :: q)).length ≤ cap := by
  unfold trimQueue
  split <;> simp_all

/-! ## Outcomes -/

/-- An operand that has a value is handed on. -/
theorem withOperand_eq {a v : Nibble} {s : State} {k : Nibble → Answer} (h : s.mem.nibble a.toNat = some v) :
    withOperand a s k = k v := by
  simp [withOperand, effectiveAddress, memRead_eq_ok a.isLt h]

/-- An operand read either hands on the value of its location or refuses for want of an image. -/
theorem withOperand_cases (a : Nibble) (s : State) (k : Nibble → Answer) :
    (∃ v, s.mem.nibble a.toNat = some v ∧ withOperand a s k = k v) ∨
    (s.mem.nibble a.toNat = none ∧ withOperand a s k = .refused .noImage) := by
  rcases h : s.mem.nibble a.toNat with _ | v
  · right
    have : ¬ 8 ≤ a.toNat / 2 := by omega
    simp [withOperand, effectiveAddress, memRead, h, stopAt, this]
  · exact .inl ⟨v, rfl, withOperand_eq h⟩

theorem done_next {s t : State} (h : done s = .next t) : t = s.setCount (s.count + 1) := by
  cases h; rfl

theorem fail_next {f : Fault} {s t : State} (h : fail f s = .next t) : t = takeFault f s := by
  cases h; rfl

/-- A not-taken jump is counted or not, and nothing else. -/
theorem jumpNotTaken_next {s t : State} (h : jumpNotTaken s = .next t) :
    t = s.setCount (s.count + s.cfg.countNotTaken.toNat) := by
  cases h; rfl

end Sys2Proof.Machine
end

