-- ==== Sys2Proof/Laws/PerInstr.lean ====
section
/-! SUPPORT. Facts about every instruction as syntax, one lemma per constructor. Family EncodingFields: the high nibble of
an instruction's word is its opcode number and the low nibble its operand, or the fill where it has none (R71, R72). -/

namespace Sys2Proof.Laws.EncodingFields

/-- The two fields of the instruction's word (R71). -/
def Statement (i : Instr) : Prop :=
  ∀ (c : Config) (fill : Nibble),
    hiNibble (encode c fill i) = i.number c ∧ loNibble (encode c fill i) = i.operand.getD fill

/-- The fields of a word put together are the fields. -/
theorem of_encode (i : Instr) : Statement i := fun c fill => by simp [encode]

theorem hlt : Statement .hlt := of_encode _
theorem jmp (a : Nibble) : Statement (.jmp a) := of_encode _
theorem jze (a : Nibble) : Statement (.jze a) := of_encode _
theorem jnz (a : Nibble) : Statement (.jnz a) := of_encode _
theorem lda (a : Nibble) : Statement (.lda a) := of_encode _
theorem sta (a : Nibble) : Statement (.sta a) := of_encode _
theorem get : Statement .get := of_encode _
theorem put : Statement .put := of_encode _
theorem rol : Statement .rol := of_encode _
theorem ror : Statement .ror := of_encode _
theorem adc (a : Nibble) : Statement (.adc a) := of_encode _
theorem ccf : Statement .ccf := of_encode _
theorem scf : Statement .scf := of_encode _
theorem del : Statement .del := of_encode _
theorem ldl (a : Nibble) : Statement (.ldl a) := of_encode _
theorem fla : Statement .fla := of_encode _
theorem invalid (code : Nibble) : Statement (.invalid code) := of_encode _

end Sys2Proof.Laws.EncodingFields
end

