-- ==== Sys2Proof/Laws/Step.lean ====
section
/-! SUPPORT. What a step can do, said once; how iterations compose; and that a word placed by `withFetchWord` is the next
instruction to run. -/

namespace Sys2Proof.Machine

/-- A machine whose run goes on passes the guard. -/
theorem loopGuard_ready {s : State} (h : s.Ready) : loopGuard s = none := by
  have := h.budgetLeft
  simp only [loopGuard, h.running, h.image, h.notHalted]
  simp
  omega

/-- A guard that is passed is that of a machine whose run goes on. -/
theorem ready_of_loopGuard {s : State} (h : loopGuard s = none) : s.Ready := by
  unfold loopGuard at h
  repeat' split at h
  all_goals cases h
  next r l hf b => exact ⟨not_not.1 r, by simpa using hf, not_le.1 b, by simpa using l⟩

/-- What the guard answers when it is not passed. -/
theorem loopGuard_cases {s : State} {x : Answer} (h : loopGuard s = some x) :
    (s.status ≠ .running ∧ x = .next s) ∨
    (s.status = .running ∧ s.mem.loaded = false ∧ x = .refused .noImage) ∨
    (s.status = .running ∧ s.mem.loaded = true ∧ s.hf = true ∧ x = .next (s.setStatus .halted)) ∨
    (s.status = .running ∧ s.mem.loaded = true ∧ s.hf = false ∧ s.cfg.budget ≤ s.count ∧
      x = .next (s.setStatus .exhausted)) := by
  unfold loopGuard at h
  split at h
  next n => cases h; exact .inl ⟨n, rfl⟩
  next r =>
    have run := not_not.1 r
    split at h
    next l => cases h; exact .inr (.inl ⟨run, l, rfl⟩)
    next l =>
      have image : s.mem.loaded = true := by simpa using l
      split at h
      next hf => cases h; exact .inr (.inr (.inl ⟨run, image, hf, rfl⟩))
      next hf =>
        split at h
        next b => cases h; exact .inr (.inr (.inr ⟨run, image, by simpa using hf, b, rfl⟩))
        next => cases h

/-- The fetch of a machine with an image answers an instruction. -/
theorem fetchInstr_eq_ok {s : State} {w : Byte} (h : fetchWord s.ip s = .ok w) :
    fetchInstr s = .ok (decode s.cfg w) := by
  simp only [fetchInstr, h]

/-- What a step that answers a next state has done: nothing, ending the run, or one instruction. -/
theorem step_cases {s t : State} (h : step s = .next t) :
    (s.status ≠ .running ∧ t = s) ∨
    (s.status = .running ∧ s.mem.loaded = true ∧ s.hf = true ∧ t = s.setStatus .halted) ∨
    (s.status = .running ∧ s.mem.loaded = true ∧ s.hf = false ∧ s.cfg.budget ≤ s.count ∧ t = s.setStatus .exhausted) ∨
    (s.Ready ∧ ∃ w, fetchWord s.ip s = .ok w ∧ exec (decode s.cfg w) s = .next t) := by
  unfold step at h
  split at h
  next x hx =>
    subst h
    rcases loopGuard_cases hx with ⟨n, e⟩ | ⟨_, _, e⟩ | ⟨r, l, hf, e⟩ | ⟨r, l, hf, b, e⟩
    · cases e; exact .inl ⟨n, rfl⟩
    · cases e
    · cases e; exact .inr (.inl ⟨r, l, hf, rfl⟩)
    · cases e; exact .inr (.inr (.inl ⟨r, l, hf, b, rfl⟩))
  next passed =>
    have ready := ready_of_loopGuard passed
    obtain ⟨w, hw⟩ := fetchWord_of_loaded ready.image s.ip
    rw [fetchInstr_eq_ok hw] at h
    exact .inr (.inr (.inr ⟨ready, w, hw, h⟩))

/-! ## Iterations -/

theorem iterate_succ {s t : State} (h : step s = .next t) (n : Nat) : iterate (n + 1) s = iterate n t := by
  simp only [iterate, h]

/-- `a` iterations that answer `t`, then `b` more. -/
theorem iterate_add {a : Nat} (b : Nat) {s t : State} (h : iterate a s = .next t) :
    iterate (a + b) s = iterate b t := by
  induction a generalizing s with
  | zero => cases h; simp
  | succ a ih =>
    rw [show a + 1 + b = (a + b) + 1 by omega]
    simp only [iterate] at h ⊢
    split at h
    next u hu => exact ih h
    · cases h
    · cases h

/-- Iterations that answer a state pass through one after any part of them. -/
theorem iterate_split {a b : Nat} {s t : State} (h : iterate (a + b) s = .next t) :
    ∃ u, iterate a s = .next u ∧ iterate b u = .next t := by
  induction a generalizing s with
  | zero => exact ⟨s, rfl, by simpa using h⟩
  | succ a ih =>
    rw [show a + 1 + b = (a + b) + 1 by omega] at h
    simp only [iterate] at h
    split at h
    next u hu =>
      obtain ⟨v, h1, h2⟩ := ih h
      exact ⟨v, by rw [iterate_succ hu]; exact h1, h2⟩
    · cases h
    · cases h

/-! ## A placed word -/

/-- A booted word's machine goes on. -/
theorem ready_bootWord (w : Byte) (s : State) : (s.bootWord w).Ready where
  running := rfl
  notHalted := State.setHF_hf s false
  budgetLeft := by simp [State.bootWord]
  image := Memory.loaded_write _ _ (Memory.loaded_write _ _ (Memory.loaded_filled _))

/-- The word placed is the word fetched. -/
theorem fetchWord_bootWord (w : Byte) (s : State) : fetchWord (s.bootWord w).ip (s.bootWord w) = .ok w := by
  have filled := Memory.loaded_filled s.mem
  have first : (Memory.putNibble s.ip.toNat (hiNibble w) s.mem.filled).loaded = true := Memory.loaded_write _ _ filled
  have e := fetchWord_eq_ok (s := s.bootWord w) (n := s.ip) (h := hiNibble w) (l := loNibble w)
    (by
      show (Memory.putNibble (s.ip + 1).toNat (loNibble w)
        (Memory.putNibble s.ip.toNat (hiNibble w) s.mem.filled)).nibble s.ip.toNat = _
      rw [nibble_putNibble _ first (s.ip + 1).isLt, if_neg (succ_toNat_ne s.ip).symm,
        nibble_putNibble _ filled s.ip.isLt, if_pos rfl])
    (by
      show (Memory.putNibble (s.ip + 1).toNat (loNibble w)
        (Memory.putNibble s.ip.toNat (hiNibble w) s.mem.filled)).nibble (s.ip + 1).toNat = _
      rw [nibble_putNibble _ first (s.ip + 1).isLt, if_pos rfl])
  rw [join_hi_lo] at e
  exact e

/-- From every state, the step after `withFetchWord` runs exactly the instruction `decodeTableWord` reads. -/
theorem step_withFetchWord {s : State} {nbits w : Nat} {i : Instr} (hw : w < 2 ^ nbits)
    (h : decodeTableWord nbits w = some i) :
    step (s.withFetchWord nbits w) = exec i (s.withFetchWord nbits w) := by
  have i_eq : i = decode tableConfig (BitVec.ofNat 8 w) := by
    unfold decodeTableWord at h
    split at h
    · exact (Option.some.inj h).symm
    · cases h
  have config : ∀ b, decode (s.bootWord b).cfg (BitVec.ofNat 8 w) = i := fun b => by rw [i_eq]; rfl
  rw [State.withFetchWord, Nat.mod_eq_of_lt hw]
  unfold step
  rw [loopGuard_ready (ready_bootWord _ s), fetchInstr_eq_ok (fetchWord_bootWord _ s), config]

end Sys2Proof.Machine
end

