-- ==== Sys2Proof/Tests/Slice0.lean ====
section
/-! SUPPORT. Tests of the model's own author. Expected results are taken from the rules' examples and from
95_test_vectors.md, named at each test, or written out by hand from an encoding; then, for every statement with
hypotheses, a witness that something meets them. -/

namespace Sys2Proof.Tests

open Sys2Proof.Machine

/-! ## Helpers -/

/-- The default configuration with the ports enabled. -/
def ports : Config := { Config.standard with portsEnabled := true }

/-- A loaded machine: two register bytes and eight memory bytes, as 95_test_vectors.md writes an image. -/
def boot (c : Config) (r0 r1 : Byte) (mem : List Byte) : State :=
  (State.load c (r0 :: r1 :: mem)).getD State.reset

/-- A loaded machine of zeros with the given AC and FR. -/
def acfr (ac fr : Nibble) : State := { boot Config.standard 0 0 [0, 0, 0, 0, 0, 0, 0, 0] with ac := ac, fr := fr }

/-- AC, FR and IP after an instruction. -/
def after (i : Instr) (s : State) : Option (Nibble × Nibble × Nibble) :=
  (nextOf (exec i s)).map fun t => (t.ac, t.fr, t.ip)

/-- A configuration whose map gives HLT two numbers and lacks JMP. -/
def badMap : Config := { Config.standard with opcodeMap := Config.standard.opcodeMap.set 1 .hlt }

/-! ## WellFormed: one ill-formed term for each check -/

theorem test_wf_code_not_a_port : (Instr.invalid 3).wf Config.standard = false := by decide
theorem test_wf_code_with_ports_on : (Instr.invalid 6).wf ports = false := by decide
theorem test_wf_get_with_ports_off : Instr.get.wf Config.standard = false := by decide
theorem test_wf_put_with_ports_off : Instr.put.wf Config.standard = false := by decide
theorem test_wf_opcode_not_in_map : (Instr.jmp 0).wf badMap = false := by decide
theorem test_wf_map_with_repeat : badMap.mapOk = false := by decide
theorem test_wf_seed_too_long : ({ ports with inputSeed := [1, 2, 3, 4, 5, 6] } : Config).launchable = false := by decide
theorem test_wf_seed_above_nibble : ({ ports with inputSeed := [0x10] } : Config).launchable = false := by decide
theorem test_wf_outputs_too_long : ({ ports with outputSeed := [1, 2, 3, 4, 5, 6] } : Config).launchable = false := by
  decide

/-! ## Decoding: words written out from 30_encoding.md R74, op at bits 7:4 and a at bits 3:0 -/

theorem test_decode_control :
    decode ports 0b00000000 = .hlt ∧ decode ports 0b00011111 = .jmp 15 ∧ decode ports 0b00101001 = .jze 9 ∧
    decode ports 0b00110011 = .jnz 3 := by decide
theorem test_decode_load_store :
    decode ports 0b01001100 = .lda 12 ∧ decode ports 0b01011110 = .sta 14 ∧ decode ports 0b11101111 = .ldl 15 := by
  decide
theorem test_decode_ports : decode ports 0b01101111 = .get ∧ decode ports 0b01110110 = .put := by decide
theorem test_decode_rotate_add :
    decode ports 0b10001000 = .rol ∧ decode ports 0b10011100 = .ror ∧ decode ports 0b10101101 = .adc 13 ∧
    decode ports 0b11110111 = .fla := by decide
theorem test_decode_flags_loop :
    decode ports 0b10111010 = .ccf ∧ decode ports 0b11001010 = .scf ∧ decode ports 0b11011110 = .del := by decide
theorem test_decode_invalid :
    decode Config.standard 0b01101111 = .invalid 6 ∧ decode Config.standard 0b01110000 = .invalid 7 := by decide
theorem test_decode_table_word :
    decodeTableWord 8 0x1F = some (.jmp 15) ∧ decodeTableWord 16 0x1F = none := by decide
theorem test_encode_jmp : encode ports 0 (.jmp 15) = 0x1F ∧ encode ports 9 .rol = 0x89 := by decide

/-! ## Memory: R54, R80, W5, W8 and the memory rows of 95_test_vectors.md -/

/-- W5's memory: location n holds n + 1 mod 16. -/
def counting : State := boot Config.standard 0 0 [0x12, 0x34, 0x56, 0x78, 0x9A, 0xBC, 0xDE, 0xF0]

theorem test_fetch_even_odd_wrap :
    fetchWord 0 counting = .ok 0x12 ∧ fetchWord 1 counting = .ok 0x23 ∧ fetchWord 14 counting = .ok 0xF0 ∧
    fetchWord 15 counting = .ok 0x01 := by decide
theorem test_mem_write_half : (memWrite 5 0xA counting).map (fun t => t.mem.read 2) = .ok (some 0x5A) := by decide
theorem test_mem_write_too_large : memWrite 5 16 counting = .error (.raise (.valueTooLarge 16)) := by decide
theorem test_mem_read_out_of_bounds : memRead 16 counting = .error (.raise (.outOfBounds 16)) := by decide
theorem test_assemble_straddles :
    (assembleAt ports 0 3 (.adc 0xE) counting.mem).read 1 = some 0x3A ∧
    (assembleAt ports 0 3 (.adc 0xE) counting.mem).read 2 = some 0xE6 := by decide
theorem test_listing : listing (.lda 12) = "LDA C" ∧ listing (.invalid 6) = "INVALID(6)" := by decide
theorem test_disassemble_p1 :
    disassemble (boot Config.standard 0 0 [0x4C, 0xAD, 0x5E, 0, 0, 0, 0x98, 0]) 4 0 =
      [(0, .lda 12), (2, .adc 13), (4, .sta 14), (6, .hlt)] := by decide

/-! ## Instructions: the derived vectors of 95_test_vectors.md -/

theorem test_hlt : after .hlt { acfr 0 0 with ip := 4 } = some (0, 8, 4) := by decide
theorem test_jmp : after (.jmp 9) { acfr 0 0 with ip := 2 } = some (0, 0, 9) := by decide
theorem test_jze_taken : after (.jze 9) { acfr 0 2 with ip := 4 } = some (0, 2, 9) := by decide
theorem test_jze_not_taken_wraps : after (.jze 9) { acfr 0 0 with ip := 15 } = some (0, 0, 1) := by decide
theorem test_jnz_taken : after (.jnz 3) { acfr 0 0 with ip := 6 } = some (0, 0, 3) := by decide
theorem test_jnz_not_taken_not_counted :
    (nextOf (exec (.jnz 3) { acfr 0 2 with ip := 6 })).map (fun t => (t.ip, t.count)) = some (8, 0) := by decide
theorem test_lda_own_operand :
    after (.lda 1) (boot Config.standard 0 0 [0x41, 0, 0, 0, 0, 0, 0, 0]) = some (1, 0, 2) := by decide
theorem test_lda_zero :
    after (.lda 5) (boot Config.standard 0 0x07 [0x45, 0, 0, 0, 0, 0, 0, 0]) = some (0, 2, 2) := by decide
theorem test_sta_keeps_flags : after (.sta 6) { acfr 0 0 with ip := 2 } = some (0, 0, 4) := by decide
theorem test_sta_half_byte :
    (nextOf (exec (.sta 14) { counting with ac := 1 })).map (fun t => t.mem.read 7) = some (some 0x10) := by decide
theorem test_ldl_zero_flag_from_li :
    (nextOf (exec (.ldl 3) (acfr 5 0))).map (fun t => (t.li, t.fr)) = some (0, 2) := by decide
theorem test_get :
    (nextOf (exec .get { acfr 0 2 with inQ := [5, 0] })).map (fun t => (t.ac, t.fr, t.inQ)) = some (5, 0, [0]) := by
  decide
theorem test_get_fault_p9 :
    (nextOf (exec .get { acfr 0 0 with inQ := [0x12] })).map (fun t => (t.ip, t.fr, t.status, t.count)) =
      some (1, 8, .faulted (.valueTooLarge 18), 0) := by decide
theorem test_put_newest_first :
    (nextOf (exec .put { acfr 0 0 with outQ := [0xA] })).map (fun t => t.outQ) = some [0, 0xA] := by decide
theorem test_put_drops_oldest :
    (nextOf (exec .put { acfr 6 0 with outQ := [1, 2, 3, 4, 5] })).map (fun t => t.outQ) = some [6, 1, 2, 3, 4] := by
  decide
theorem test_rol : after .rol (acfr 9 0) = some (2, 1, 1) ∧ after .rol (acfr 0xF 1) = some (0xF, 5, 1) := by decide
theorem test_rol_zero : after .rol (acfr 8 0) = some (0, 3, 1) := by decide
theorem test_ror : after .ror (acfr 6 1) = some (0xB, 0, 1) ∧ after .ror (acfr 1 0) = some (0, 3, 1) := by decide
theorem test_ror_from_carry : after .ror (acfr 0 1) = some (8, 0, 1) := by decide
theorem test_adc_wrap : after (.adc 0) { acfr 0xF 0 with mem := (acfr 0 0).mem.write 0 0x10 } = some (0, 3, 2) := by
  decide
theorem test_adc_carry_stays :
    after (.adc 0) { acfr 0xF 1 with mem := (acfr 0 0).mem.write 0 0xF0 } = some (0xF, 5, 2) := by decide
theorem test_fla : after .fla (acfr 5 0) = some (0xA, 0, 1) ∧ after .fla (acfr 0xF 0) = some (0, 2, 1) := by decide
theorem test_ccf : after .ccf (acfr 0 5) = some (0, 4, 1) := by decide
theorem test_scf : after .scf (acfr 0 6) = some (0, 7, 1) := by decide
theorem test_del_wraps :
    (nextOf (exec .del (acfr 0 2))).map (fun t => (t.li, t.fr)) = some (0xF, 0) := by decide
theorem test_del_to_zero :
    (nextOf (exec .del { acfr 7 0 with li := 1 })).map (fun t => (t.li, t.fr)) = some (0, 2) := by decide
theorem test_invalid_step :
    (nextOf (step (boot Config.standard 0x20 0 [0, 0x60, 0, 0, 0, 0, 0, 0]))).map (fun t => (t.ip, t.fr, t.result)) =
      some (2, 8, some (.err (.invalidInstruction 6) 0)) := by decide
theorem test_invalid_not_surfaced :
    (nextOf (step (boot { Config.standard with surfaceInvalid := false } 0 0 [0x60, 0, 0, 0, 0, 0, 0, 0]))).map
      (fun t => (t.hf, t.result)) = some (true, some (.ok 0)) := by decide

/-! ## The loop and the host interface -/

/-- W1: "executes 1 instruction, halts, IP stays 0". -/
theorem test_session_w1 :
    session Config.standard [0, 0, 0, 0, 0, 0, 0, 0, 0, 0] 2 =
      .ended (.ok 1) { boot Config.standard 0 0x80 [0, 0, 0, 0, 0, 0, 0, 0] with count := 1, status := .halted } := by
  decide

/-- W2 with BUDGET = 1: JMP only, Exhausted, HF = 0. -/
theorem test_session_exhausted :
    session { Config.standard with budget := 1 } [0, 0, 0x1F, 0, 0, 0, 0, 0, 0, 0] 2 =
      .ended (.ok 1) { boot { Config.standard with budget := 1 } 0xF0 0 [0x1F, 0, 0, 0, 0, 0, 0, 0] with
        count := 1, status := .exhausted } := by decide

/-- W10: a short payload. -/
theorem test_session_short : session Config.standard [0, 0, 0, 0, 0, 0, 0, 0, 0] 2 = .tooShort := by decide

/-- W9: `3C A0` decodes to IP = 3, LI = C, FR = A, AC = 0 and encodes back. -/
theorem test_register_bytes :
    (boot Config.standard 0x3C 0xA0 [0, 0, 0, 0, 0, 0, 0, 0]).regBytes = (0x3C, 0xA0) ∧
    (boot Config.standard 0x3C 0xA0 [0, 0, 0, 0, 0, 0, 0, 0]).li = 0xC := by decide

/-- The first instruction after reset, placed as the host places one. -/
theorem test_first_instruction :
    (nextOf (step (State.reset.withFetchWord 8 0x1F))).map (fun t => (t.ip, t.count)) = some (15, 1) ∧
    (nextOf (step (State.reset.withFetchWord 8 0x60))).map (fun t => (t.ip, t.fr)) = some (1, 2) := by decide

/-- The numeric codes of R171. -/
theorem test_fault_codes :
    statusCode .running = 0 ∧ statusCode (.faulted (.invalidInstruction 6)) = 1 ∧
    statusCode (.faulted (.outOfBounds 16)) = 2 ∧ statusCode (.faulted (.valueTooLarge 18)) = 3 ∧
    statusCode (.faulted (.mathError "")) = 4 := by decide

/-! ## Witnesses: something meets the hypotheses of each statement, a clause at a time -/

theorem test_witness_DecodeUndoesEncode :
    (Instr.sta 15).wf Config.standard = true ∧ (Instr.invalid 6).wf Config.standard = true ∧
    (Instr.invalid 7).wf Config.standard = true ∧ Instr.get.wf ports = true ∧ Instr.put.wf ports = true := by decide

theorem test_witness_EncodeUndoesDecode : Config.standard.mapOk = true ∧ ports.mapOk = true := by decide

theorem test_witness_PortGateDecides :
    Config.standard.portsEnabled = false ∧ ports.opcodeMap = listingOrder ∧ ports.portsEnabled = true ∧
    ((5 : Nibble) ≠ 6 ∧ (5 : Nibble) ≠ 7) ∧ ((8 : Nibble) ≠ 6 ∧ (8 : Nibble) ≠ 7) ∧
    Config.standard.opcodeMap = ports.opcodeMap := by decide

theorem test_witness_FormatsOfWords :
    (decode Config.standard (joinNibbles 15 3)).width = 1 ∧
    (decode Config.standard (joinNibbles 14 15)).operand = some 15 := by decide

theorem test_witness_AssembledInstructionIsFetched :
    counting.mem.loaded = true ∧ (Instr.jmp 15).wf counting.cfg = true ∧ Instr.fla.wf counting.cfg = true := by decide

theorem ready_counting : counting.Ready := ⟨by decide, by decide, by decide, by decide⟩

theorem ready_counting_at_15 : ({ counting with ip := 15 } : State).Ready :=
  ⟨by decide, by decide, by decide, by decide⟩

theorem test_witness_StepRunsDecodedInstruction :
    ({ counting with ip := 15 } : State).Ready ∧ counting.mem.nibble (15 : Nibble).toNat = some 0 ∧
    counting.mem.nibble ((15 : Nibble) + 1).toNat = some 1 := ⟨ready_counting_at_15, by decide, by decide⟩

theorem test_witness_LoopGuardEndsRun :
    (acfr 0 8).status = .running ∧ (acfr 0 8).mem.loaded = true ∧ (acfr 0 8).hf = true ∧
    (acfr 0 0).hf = false ∧ (acfr 0 0).cfg.budget ≤ ({ acfr 0 0 with count := 100 } : State).count := by decide

theorem test_witness_EndedRunExecutesNothing :
    ({ acfr 0 8 with status := .halted } : State).status ≠ .running ∧
    ({ acfr 0 8 with status := .faulted (.invalidInstruction 7) } : State).status ≠ .running := by decide

theorem test_witness_MachineWithoutImageIsRefused :
    let s : State := { acfr 0 0 with mem := (acfr 0 0).mem.take 7 }
    s.status = .running ∧ ∃ k, k < 8 ∧ s.mem.read k = none := ⟨by decide, 7, by decide, by decide⟩

theorem test_witness_HltHalts :
    (acfr 0 0).status = .running ∧ (acfr 0 0).mem.loaded = true ∧ ∃ t, exec .hlt (acfr 0 0) = .next t :=
  ⟨by decide, by decide, _, rfl⟩

theorem test_witness_WordDecodes : Config.standard.opcodeMap = listingOrder := by decide

theorem test_witness_PortWordDecodes : ports.opcodeMap = listingOrder ∧ ports.portsEnabled = true := by decide

theorem test_witness_ConditionalJumpsFollowZeroFlag : (acfr 0 2).zf = true ∧ (acfr 0 13).zf = false := by decide

theorem test_witness_loads :
    counting.mem.nibble (15 : Nibble).toNat = some 0 ∧ counting.mem.nibble (0 : Nibble).toNat = some 1 := by decide

theorem test_witness_StaStoresAccumulator :
    counting.mem.nibble (effectiveAddress 15) ≠ none ∧ (0 : Nat) ≠ effectiveAddress 15 := by decide

theorem test_witness_FetchSeesStore :
    (∃ t w, exec (.sta 0) counting = .next t ∧ fetchWord 0 t = .ok w) ∧
    (∃ t w, exec (.sta 0) counting = .next t ∧ fetchWord 15 t = .ok w ∧ (15 : Nibble) + 1 = 0) :=
  ⟨⟨_, _, rfl, rfl⟩, ⟨_, _, rfl, rfl, by decide⟩⟩

theorem test_witness_GetPopsInputQueue :
    (acfr 0 0).inQ = [] ∧ ({ acfr 0 0 with inQ := [15, 3] } : State).inQ = 15 :: [3] ∧ (15 : Byte).toNat ≤ 15 := by
  decide

theorem test_witness_GetOfLargeEntryFaults :
    ({ acfr 0 0 with inQ := [16, 3] } : State).inQ = 16 :: [3] ∧ 15 < (16 : Byte).toNat := by decide

theorem test_witness_PutPushesOutputQueue :
    let s : State := { acfr 6 0 with outQ := [1, 2, 3, 4, 5] }
    s.outQ.length ≤ s.cfg.qcap := by decide

theorem test_witness_RotatesUndoEachOther :
    (∃ t u, exec .rol (acfr 0xB 1) = .next t ∧ exec .ror t = .next u) ∧
    (∃ t u, exec .ror (acfr 0xB 1) = .next t ∧ exec .rol t = .next u) ∧
    (∃ t u v w x, exec .rol (acfr 0xB 1) = .next t ∧ exec .rol t = .next u ∧ exec .rol u = .next v ∧
      exec .rol v = .next w ∧ exec .rol w = .next x) :=
  ⟨⟨_, _, rfl, rfl⟩, ⟨_, _, rfl, rfl⟩, ⟨_, _, _, _, _, rfl, rfl, rfl, rfl, rfl⟩⟩

theorem test_witness_InvalidTakesFault : (acfr 0 0).cfg.portsEnabled = false := by decide

/-- A machine about to take InvalidInstruction. -/
def atInvalid (c : Config) : State := boot c 0 0 [0x60, 0, 0, 0, 0, 0, 0, 0]

/-- A machine about to take ValueTooLarge (P9). -/
def atLargeGet : State := { boot ports 0 0 [0x60, 0, 0, 0, 0, 0, 0, 0] with inQ := [0x12] }

theorem test_witness_OnlyTwoFaultsAreReachable :
    (atInvalid Config.standard).status = .running ∧ atLargeGet.status = .running ∧
    (∃ t, step (atInvalid Config.standard) = .next t ∧ t.status = .faulted (.invalidInstruction 6)) ∧
    (∃ t, step atLargeGet = .next t ∧ t.status = .faulted (.valueTooLarge 18)) :=
  ⟨by decide, by decide, ⟨_, rfl, by decide⟩, ⟨_, rfl, by decide⟩⟩

theorem test_witness_NibbleQueuesStayNibble :
    let s : State := { boot ports 0 0 [0x60, 0, 0, 0, 0, 0, 0, 0] with inQ := [15], outQ := [15] }
    s.queuesInRange ∧ s.status = .running ∧ ∃ t, step s = .next t :=
  ⟨⟨by decide, by decide⟩, by decide, _, rfl⟩

theorem test_witness_EndedRunResult :
    (∃ t, step counting = .next t ∧ t.status = .running) ∧
    (∃ t, step (acfr 0 8) = .next t ∧ t.status = .halted) ∧
    (∃ t, step { acfr 0 0 with count := 100 } = .next t ∧ t.status = .exhausted) ∧
    (∃ t, step (atInvalid Config.standard) = .next t ∧ t.status = .faulted (.invalidInstruction 6)) ∧
    (∃ t, step (atInvalid { Config.standard with surfaceInvalid := false }) = .next t ∧
      t.status = .faulted (.invalidInstruction 6)) ∧
    (∃ t, step atLargeGet = .next t ∧ t.status = .faulted (.valueTooLarge 18)) :=
  ⟨⟨_, rfl, by decide⟩, ⟨_, rfl, by decide⟩, ⟨_, rfl, by decide⟩, ⟨_, rfl, by decide⟩, ⟨_, rfl, by decide⟩,
    ⟨_, rfl, by decide⟩⟩

theorem test_witness_OnlyStaWritesMemory :
    (∃ t, exec (.adc 3) counting = .next t) ∧ ∀ a, Instr.adc 3 ≠ .sta a := ⟨⟨_, rfl⟩, by simp⟩

theorem test_witness_StaFrame :
    (∃ t, exec (.sta 15) counting = .next t) ∧ (6 : Nat) ≠ effectiveAddress 15 / 2 ∧
    (14 : Nat) ≠ effectiveAddress 15 := ⟨⟨_, rfl⟩, by decide, by decide⟩

theorem test_witness_RegisterAndFlagFrame :
    (∃ t, exec .scf counting = .next t ∧ t.status = .running) ∧ counting.status = .running ∧
    writesAC .scf = false ∧ writesLI .scf = false ∧ writesCF (.lda 0) = false ∧ writesZF .scf = false ∧
    writesOF .scf = false ∧ (∃ t, exec (.lda 0) counting = .next t) ∧ Instr.scf ≠ .hlt :=
  ⟨⟨_, rfl, by decide⟩, by decide, by decide, by decide, by decide, by decide, by decide, ⟨_, rfl⟩, by decide⟩

theorem test_witness_QueueFrame :
    (∃ t, exec .get counting = .next t) ∧ (∃ t, exec .put counting = .next t) ∧ Instr.get ≠ .put ∧ Instr.put ≠ .get :=
  ⟨⟨_, rfl⟩, ⟨_, rfl⟩, by decide, by decide⟩

theorem test_witness_CounterAdvance :
    counting.status = .running ∧ (∃ t, exec (.jze 3) counting = .next t ∧ t.status = .running) ∧
    jumpFails (.jze 3) counting ∧ counting.cfg.countNotTaken = false ∧ ¬ jumpFails .scf counting ∧
    (∃ t, exec .scf counting = .next t ∧ t.status = .running) ∧
    (∃ t, exec (.invalid 7) counting = .next t ∧ t.status = .faulted (.invalidInstruction 7)) :=
  ⟨by decide, ⟨_, rfl, by decide⟩, .inl ⟨3, rfl, by decide⟩, by decide, by simp [jumpFails], ⟨_, rfl, by decide⟩,
    ⟨_, rfl, by decide⟩⟩

theorem test_witness_ConfigurationIsConstant : ∃ t, step counting = .next t := ⟨_, rfl⟩

theorem test_witness_MemReadReadsNibble :
    16 ≤ 16 ∧ 15 < 16 ∧ counting.mem.read (15 / 2) = some 0xF0 ∧ 15 % 2 = 1 ∧
    counting.mem.read (14 / 2) = some 0xF0 ∧ 14 % 2 = 0 := by decide

theorem test_witness_MemWriteWritesHalfByte :
    counting.mem.read (15 / 2) = some 0xF0 ∧ counting.mem.read (0 / 2) = some 0x12 ∧ 15 ≤ 15 ∧ 15 < 16 ∧ 16 ≤ 16 ∧
    (6 : Nat) ≠ 15 / 2 := by decide

theorem test_witness_FetchWordPacksNibbles :
    (14 : Nibble).toNat % 2 = 0 ∧ counting.mem.read ((14 : Nibble).toNat / 2) = some 0xF0 ∧
    (15 : Nibble).toNat % 2 = 1 ∧ counting.mem.read ((15 : Nibble).toNat / 2) = some 0xF0 ∧
    counting.mem.read (((15 : Nibble).toNat / 2 + 1) % 8) = some 0x12 ∧
    memRead (15 : Nibble).toNat counting = .ok 0 ∧ memRead (((15 : Nibble).toNat + 1) % 16) counting = .ok 1 := by decide

theorem test_witness_CheckedRegisterWrites : 15 < 16 ∧ 15 ≤ 15 := by decide

theorem test_witness_ImageIsFirstTenBytes :
    (List.replicate 9 (0 : Byte)).length < 10 ∧ 10 ≤ (List.replicate 10 (0 : Byte)).length ∧
    10 ≤ (List.replicate 11 (0 : Byte)).length := by decide

theorem test_witness_LoadTakesImage :
    let image : List Byte := [0x3C, 0xA0, 1, 2, 3, 4, 5, 6, 7, 8]
    image.length = 10 ∧ (∃ s, State.load Config.standard image = some s) ∧ image[0]? = some 0x3C ∧
    image[1]? = some 0xA0 := ⟨by decide, ⟨_, rfl⟩, by decide, by decide⟩

theorem test_witness_SnapshotReturnsImage : ([1, 2, 3, 4, 5, 6, 7, 8] : List Byte).length = 8 := by decide

theorem inv_counting : counting.Inv := ⟨by decide, by decide, by decide, by decide, trivial⟩

theorem test_witness_StepKeepsInvariant :
    counting.Inv ∧ ∃ t, step counting = .next t := ⟨inv_counting, _, rfl⟩

theorem test_witness_LoadMeetsInvariant :
    let c : Config := { ports with inputSeed := [15, 0, 1, 2, 3], outputSeed := [5] }
    c.launchable = true ∧ ∃ s, State.load c (List.replicate 11 0) = some s := ⟨by decide, _, rfl⟩

theorem test_witness_LoadedMachineAlwaysSteps : counting.mem.loaded = true := by decide

theorem test_witness_HaltFlagIsNeverCleared :
    (∃ t, step (acfr 0 8) = .next t ∧ (acfr 0 8).hf = true) ∧
    (∃ t, step (acfr 0 0) = .next t ∧ (acfr 0 0).hf = false ∧ t.hf = true) ∧
    (∃ t, step (atInvalid Config.standard) = .next t ∧ (atInvalid Config.standard).hf = false ∧ t.hf = true) ∧
    (acfr 0 8).status = .running ∧ (acfr 0 8).mem.loaded = true ∧ (∃ t, exec .hlt (acfr 0 0) = .next t) :=
  ⟨⟨_, rfl, by decide⟩, ⟨_, rfl, by decide, by decide⟩, ⟨_, rfl, by decide, by decide⟩, by decide, by decide, _, rfl⟩

theorem test_witness_OverflowFlagIsNeverRead :
    writesOF .rol = true ∧ (∃ t, exec .rol counting = .next t) ∧ ∃ t, exec (.lda 3) counting = .next t :=
  ⟨by decide, ⟨_, rfl⟩, _, rfl⟩

theorem test_witness_CounterAndOutputAreNeverRead : ∃ t, exec .put counting = .next t := ⟨_, rfl⟩

theorem test_witness_CountedRunsEnd :
    let s := boot { Config.standard with countNotTaken := true } 0 0 [0x22, 0x22, 0x22, 0x22, 0x22, 0x22, 0x22, 0x22]
    s.mem.loaded = true ∧ s.cfg.countNotTaken = true := by decide

/-- P6: every location holds 2, ZF = 0. -/
theorem test_witness_EightUncountedStepsRepeat :
    let s := boot Config.standard 0 0 [0x22, 0x22, 0x22, 0x22, 0x22, 0x22, 0x22, 0x22]
    ∃ t, iterate 8 s = .next t ∧ t.status = .running ∧ t.count = s.count := ⟨_, rfl, by decide, by decide⟩

/-- W1: a run that ends. -/
theorem test_witness_EndingRunsEndSoon :
    ∃ t, iterate 2 (acfr 0 0) = .next t ∧ t.status ≠ .running := ⟨_, rfl, by decide⟩

/-- W3: JMP 0 at 0. -/
theorem test_witness_SelfJumpIsCutOffAtBudget :
    let s := boot Config.standard 0 0 [0x10, 0, 0, 0, 0, 0, 0, 0]
    s.Ready ∧ s.cfg.opcodeMap = listingOrder ∧ s.mem.nibble s.ip.toNat = some 1 ∧
    s.mem.nibble (s.ip + 1).toNat = some s.ip :=
  ⟨⟨by decide, by decide, by decide, by decide⟩, by decide, by decide, by decide⟩

end Sys2Proof.Tests
end

/-! # State family: registers, HF and OF

What a checked write and the accessors do to the register file, what each instruction that answers a next state has done,
and that writing OF commutes with every operation that does not compute it. -/

namespace Sys2Proof.Machine

/-! ## Register writes as record updates (R29 to R31) -/

/-- A write of AC, as the record with FR packed from its flags (R30). -/
theorem State.writeAC_eq (s : State) (v : Nibble) :
    s.writeAC v = { s with ac := v, fr := packFlags s.hf s.ov (zeroFlag v) s.cf } :=
  State.ext rfl rfl rfl (s.putBit_fr _).2.1 rfl rfl rfl rfl rfl rfl

/-- A write of LI, as the record with FR packed from its flags (R30). -/
theorem State.writeLI_eq (s : State) (v : Nibble) :
    s.writeLI v = { s with li := v, fr := packFlags s.hf s.ov (zeroFlag v) s.cf } :=
  State.ext rfl rfl rfl (s.putBit_fr _).2.1 rfl rfl rfl rfl rfl rfl

/-- A value up to 15 passes the check of R8. -/
theorem checkNibble_eq_ok {v : Nat} (h : v ≤ 15) : checkNibble v = .ok (BitVec.ofNat 4 v) :=
  if_neg (Nat.not_lt.2 h)

theorem zeroFlag_ofNat {v : Nat} (h : v ≤ 15) : zeroFlag (BitVec.ofNat 4 v) = decide (v = 0) := by
  interval_cases v <;> decide

/-- A sum of nibbles wraps modulo 16 (R31). -/
theorem nibble_add_eq_ofNat (v k : Nibble) : v + k = BitVec.ofNat 4 ((v.toNat + k.toNat) % 16) :=
  BitVec.eq_of_toNat_eq (by simp)

theorem zeroFlag_add_one (v : Nibble) : zeroFlag (v + 1) = decide (v = 15) := by
  revert v; decide

theorem zeroFlag_add_fifteen (v : Nibble) : zeroFlag (v + 15) = decide (v = 1) := by
  revert v; decide

/-- Settles O42: past the check of R8, each register's write is the record update that names it. -/
theorem checkedRegisterWrites : Obligations.CheckedRegisterWrites := by
  intro s v
  refine ⟨fun large r => setReg_tooLarge r s large, fun small => ?_⟩
  simp only [setReg, checkNibble_eq_ok small, State.writeAC_eq, State.writeLI_eq, zeroFlag_ofNat small, State.jumpTo,
    and_self]

/-- Settles O43: an accessor adds 1 or 15 to a nibble, which wraps, and ZF tells which value it wrapped or fell from. -/
theorem accessorsWrap : Obligations.AccessorsWrap := by
  intro s
  have up (v : Nibble) : v + 1 = BitVec.ofNat 4 ((v.toNat + 1) % 16) := nibble_add_eq_ofNat v 1
  have down (v : Nibble) : v + 15 = BitVec.ofNat 4 ((v.toNat + 15) % 16) := nibble_add_eq_ofNat v 15
  simp only [State.incIP, State.decIP, State.incLI, State.decLI, State.incAC, State.decAC, State.advanceIP,
    State.writeLI_eq, State.writeAC_eq, zeroFlag_add_one, zeroFlag_add_fifteen, ← up, ← down, and_self]

/-- Settles O44: joining two nibbles and taking a byte's halves are inverse to each other. -/
theorem registerBytesRoundTrip : Obligations.RegisterBytesRoundTrip := by
  constructor
  · intro s b
    simp only [State.regBytes, State.withRegBytes, join_hi_lo]
  · intro s t
    simp only [State.regBytes, State.withRegBytes, hiNibble_join, loNibble_join]

/-! ## What an instruction that answers a next state has done -/

/-- An operand read that leads to a next state has handed on the value of its location (R123). -/
theorem withOperand_next {a : Nibble} {s t : State} {k : Nibble → Answer} (h : withOperand a s k = .next t) :
    ∃ v, s.mem.nibble a.toNat = some v ∧ k v = .next t := by
  rcases withOperand_cases a s k with ⟨v, hv, e⟩ | ⟨_, e⟩
  · exact ⟨v, hv, e.symm.trans h⟩
  · cases e.symm.trans h

/-- A conditional jump jumps, counted, or goes on with the next instruction (R112, R113). -/
theorem condJump_next {taken : Bool} {a : Nibble} {s t : State} (h : condJump taken a s = .next t) :
    (taken = true ∧ t = (s.jumpTo a).setCount (s.count + 1)) ∨
    (taken = false ∧ t = (s.advanceIP 2).setCount (s.count + s.cfg.countNotTaken.toNat)) := by
  cases taken with
  | true => exact .inl ⟨rfl, done_next h⟩
  | false => exact .inr ⟨rfl, jumpNotTaken_next h⟩

/-- STA's next state is the counted one with one nibble of one byte replaced (R121). -/
theorem execSta_next {a : Nibble} {s t : State} (h : execSta a s = .next t) :
    ∃ b, s.mem.read (a.toNat / 2) = some b ∧
      t = ((s.advanceIP 2).setMem (s.mem.write (a.toNat / 2) (replaceNibble a.toNat s.ac b))).setCount (s.count + 1) := by
  unfold execSta at h
  split at h
  next u written =>
    obtain ⟨_, _, b, hb, rfl⟩ := memWrite_ok written
    exact ⟨b, hb, by simpa [effectiveAddress] using done_next h⟩
  next e stopped =>
    obtain ⟨_, rfl⟩ := memWrite_error a.isLt s.ac.isLt stopped
    cases h

/-- STA to a byte that has a value (R121). -/
theorem execSta_eq {a : Nibble} {s : State} {b : Byte} (h : s.mem.read (a.toNat / 2) = some b) :
    execSta a s = .next
      (((s.advanceIP 2).setMem (s.mem.write (a.toNat / 2) (replaceNibble a.toNat s.ac b))).setCount (s.count + 1)) := by
  have written := memWrite_eq_ok (s := s.advanceIP 2) a.isLt s.ac.isLt h
  simp only [execSta, effectiveAddress, written]
  simp [done]

/-- GET pops the front entry, 0 from an empty queue, and loads it when it is at most 15 (R130). -/
theorem execGet_of_le {s : State} (small : (s.inQ.headD 0).toNat ≤ 15) :
    execGet s = .next
      (((popInput (s.advanceIP 1)).2.writeAC (BitVec.ofNat 4 (s.inQ.headD 0).toNat)).setCount (s.count + 1)) := by
  simp only [execGet, popInput_value, State.advanceIP_inQ, setReg_ac _ small]
  simp [done]

/-- GET pops a front entry above 15 and then takes its fault (R130, R177). -/
theorem execGet_of_gt {s : State} (large : 15 < (s.inQ.headD 0).toNat) :
    execGet s = .next
      (takeFault (.valueTooLarge (s.inQ.headD 0).toNat) (popInput (s.advanceIP 1)).2) := by
  simp only [execGet, popInput_value, State.advanceIP_inQ, setReg_tooLarge .ac _ large]
  rfl

/-! ## HF (R28) -/

/-- The guard of a machine that comes to it with HF set ends the run as Halted (R92). -/
theorem loopGuard_halting {s : State} (running : s.status = .running) (image : s.mem.loaded = true)
    (halting : s.hf = true) : loopGuard s = some (.next (s.setStatus .halted)) := by
  simp [loopGuard, running, image, halting]

/-- An instruction that does not fault keeps HF, except HLT (R28, R45). -/
theorem exec_hf {i : Instr} {s t : State} (h : exec i s = .next t) :
    (∃ f, t.status = .faulted f) ∨ i = .hlt ∨ t.hf = s.hf := by
  cases i with
  | hlt => exact .inr (.inl rfl)
  | invalid code => cases h; exact .inl ⟨_, rfl⟩
  | get =>
    rcases le_or_gt (s.inQ.headD 0).toNat 15 with small | large
    · cases (execGet_of_le small).symm.trans h
      exact .inr (.inr (by simp))
    · cases (execGet_of_gt large).symm.trans h
      exact .inl ⟨_, rfl⟩
  | jze a | jnz a => rcases condJump_next h with ⟨_, rfl⟩ | ⟨_, rfl⟩ <;> simp
  | lda a | adc a | ldl a =>
    obtain ⟨v, _, counted⟩ := withOperand_next h
    cases counted
    simp
  | sta a =>
    obtain ⟨b, _, rfl⟩ := execSta_next h
    simp
  | jmp a | put | rol | ror | ccf | scf | del | fla =>
    cases h
    simp [State.decLI]

/-- Settles O52: an instruction runs only with HF clear, and of those that run only HLT and a fault set it. -/
theorem haltFlagIsNeverCleared : Obligations.HaltFlagIsNeverCleared := by
  refine ⟨fun s t h wasSet => ?_, fun s t h clear isSet => ?_, fun s running image halting => ?_, fun s t h => ?_,
    fun f s => takeFault_hf s f⟩
  · rcases step_cases h with ⟨_, rfl⟩ | ⟨_, _, _, rfl⟩ | ⟨_, _, _, _, rfl⟩ | ⟨ready, _⟩
    · exact wasSet
    · exact wasSet
    · exact wasSet
    · exact absurd (wasSet.symm.trans ready.notHalted) (by decide)
  · have changed : t.hf ≠ s.hf := by simp [isSet, clear]
    rcases step_cases h with ⟨_, rfl⟩ | ⟨_, _, _, rfl⟩ | ⟨_, _, _, _, rfl⟩ | ⟨_, w, fetched, ran⟩
    · exact absurd rfl changed
    · exact absurd rfl changed
    · exact absurd rfl changed
    · rcases exec_hf ran with fault | hlt | kept
      · exact .inl fault
      · exact .inr ⟨w, fetched, hlt⟩
      · exact absurd kept changed
  · simp only [step, loopGuard_halting running image halting]
    rfl
  · cases h
    simp

/-! ## OF (R27): writing it commutes with every operation that does not compute it -/

@[simp] theorem State.setOV_setOV (s : State) (b c : Bool) : (s.setOV b).setOV c = s.setOV c :=
  State.ext rfl rfl rfl (by simp [State.putBit_fr]) rfl rfl rfl rfl rfl rfl

@[simp] theorem State.setCount_setOV (s : State) (b : Bool) (n : Nat) :
    (s.setOV b).setCount n = (s.setCount n).setOV b := rfl

@[simp] theorem State.setMem_setOV (s : State) (b : Bool) (m : Memory) :
    (s.setOV b).setMem m = (s.setMem m).setOV b := rfl

@[simp] theorem State.advanceIP_setOV (s : State) (b : Bool) (n : Nibble) :
    (s.setOV b).advanceIP n = (s.advanceIP n).setOV b := rfl

@[simp] theorem State.jumpTo_setOV (s : State) (b : Bool) (n : Nibble) :
    (s.setOV b).jumpTo n = (s.jumpTo n).setOV b := rfl

@[simp] theorem pushOutput_setOV (s : State) (b : Bool) (v : Nibble) :
    pushOutput v (s.setOV b) = (pushOutput v s).setOV b := rfl

@[simp] theorem State.setCF_setOV (s : State) (b c : Bool) : (s.setOV b).setCF c = (s.setCF c).setOV b :=
  State.ext rfl rfl rfl (by simp [State.putBit_fr]) rfl rfl rfl rfl rfl rfl

@[simp] theorem State.setHF_setOV (s : State) (b c : Bool) : (s.setOV b).setHF c = (s.setHF c).setOV b :=
  State.ext rfl rfl rfl (by simp [State.putBit_fr]) rfl rfl rfl rfl rfl rfl

@[simp] theorem State.writeAC_setOV (s : State) (b : Bool) (v : Nibble) :
    (s.setOV b).writeAC v = (s.writeAC v).setOV b :=
  State.ext rfl rfl rfl (by simp [State.putBit_fr]) rfl rfl rfl rfl rfl rfl

@[simp] theorem State.writeLI_setOV (s : State) (b : Bool) (v : Nibble) :
    (s.setOV b).writeLI v = (s.writeLI v).setOV b :=
  State.ext rfl rfl rfl (by simp [State.putBit_fr]) rfl rfl rfl rfl rfl rfl

/-- A rotate or an add computes OF afresh, so what it was makes no difference. -/
@[simp] theorem State.writeResult_setOV (s : State) (b : Bool) (v : Nibble) (c : Bool) :
    (s.setOV b).writeResult v c = s.writeResult v c := by
  simp [State.writeResult]

@[simp] theorem popInput_setOV (s : State) (b : Bool) : (popInput (s.setOV b)).2 = (popInput s).2.setOV b := by
  apply State.ext <;> simp

@[simp] theorem takeFault_setOV (s : State) (b : Bool) (f : Fault) :
    takeFault f (s.setOV b) = (takeFault f s).setOV b := by
  simp only [takeFault, State.setHF_setOV]
  rfl

/-- A conditional jump leaves OF as it finds it, taken or not. -/
theorem condJump_setOV {taken : Bool} {a : Nibble} {s t : State} (b : Bool) (h : condJump taken a s = .next t) :
    condJump taken a (s.setOV b) = .next (t.setOV b) := by
  rcases condJump_next h with ⟨rfl, rfl⟩ | ⟨rfl, rfl⟩ <;> rfl

/-- With OF set to `b` first, an instruction that writes OF has the same next state, and any other has its next state with
OF `b`. -/
theorem exec_setOV {i : Instr} {s t : State} (b : Bool) (h : exec i s = .next t) :
    exec i (s.setOV b) = .next (if writesOF i then t else t.setOV b) := by
  cases i with
  | hlt | ccf | scf | del | fla | rol | ror =>
    cases h
    simp [exec, execHlt, execCcf, execScf, execDel, execFla, execRol, execRor, State.decLI, done, writesOF]
  | jmp a | put => cases h; rfl
  | invalid code =>
    cases h
    exact congrArg Host.Outcome.next (takeFault_setOV ..)
  | get =>
    rcases le_or_gt (s.inQ.headD 0).toNat 15 with small | large
    · cases (execGet_of_le small).symm.trans h
      exact (execGet_of_le (s := s.setOV b) small).trans (by simp [writesOF])
    · cases (execGet_of_gt large).symm.trans h
      exact (execGet_of_gt (s := s.setOV b) large).trans (by simp [writesOF])
  | jze a | jnz a =>
    simp only [exec, execJze, execJnz, State.setOV_zf] at h ⊢
    exact condJump_setOV b h
  | lda a | adc a | ldl a =>
    obtain ⟨v, hv, counted⟩ := withOperand_next h
    cases counted
    have operand (k : Nibble → Answer) : withOperand a ((s.setOV b).advanceIP 2) k = k v := withOperand_eq hv
    simp only [exec, execLda, execAdc, execLdl, operand]
    simp [done, writesOF]
  | sta a =>
    obtain ⟨d, hd, rfl⟩ := execSta_next h
    exact execSta_eq hd

/-- Settles O53: OF is computed from the two carries alone, and writing it before an instruction comes to writing it
after, or to nothing where the instruction writes it. -/
theorem overflowFlagIsNeverRead : Obligations.OverflowFlagIsNeverRead := by
  refine ⟨fun i s t writes h => ?_, fun i s t b h => ⟨_, exec_setOV b h, by split <;> simp⟩⟩
  cases i with
  | rol | ror =>
    cases h
    simp [overflowFlag]
  | adc a =>
    obtain ⟨m, _, counted⟩ := withOperand_next h
    cases counted
    simp [overflowFlag]
  | _ => cases writes

end Sys2Proof.Machine

/-! # Memory family: nibble reads, nibble writes and fetched words (R50 to R55)

The two halves of a byte as numbers, what each half-byte operation answers, and the three obligations on MemRead, MemWrite
and FetchWord. -/

namespace Sys2Proof.Machine

/-! ## The halves of a byte as numbers (R50) -/

theorem toNat_hiNibble (b : Byte) : (hiNibble b).toNat = b.toNat / 16 := by
  have small : b.toNat / 16 < 16 := by omega
  simpa [hiNibble, Nat.shiftRight_eq_div_pow] using Nat.mod_eq_of_lt small

theorem toNat_loNibble (b : Byte) : (loNibble b).toNat = b.toNat % 16 := by
  simp [loNibble]

/-- An even location is the high half of its byte (R50). -/
theorem nibbleAt_of_even {n : Nat} (even : n % 2 = 0) (b : Byte) : nibbleAt n b = hiNibble b := if_pos even

/-- An odd location is the low half of its byte (R50). -/
theorem nibbleAt_of_odd {n : Nat} (odd : n % 2 = 1) (b : Byte) : nibbleAt n b = loNibble b :=
  if_neg (by omega)

/-- At an even location the high half is replaced (R52). -/
theorem toNat_replaceNibble_of_even {n : Nat} (even : n % 2 = 0) (v : Nibble) (b : Byte) :
    (replaceNibble n v b).toNat = 16 * v.toNat + b.toNat % 16 := by
  rw [replaceNibble, if_pos even, toNat_joinNibbles, toNat_loNibble]

/-- At an odd location the low half is replaced (R52). -/
theorem toNat_replaceNibble_of_odd {n : Nat} (odd : n % 2 = 1) (v : Nibble) (b : Byte) :
    (replaceNibble n v b).toNat = 16 * (b.toNat / 16) + v.toNat := by
  rw [replaceNibble, if_neg (by omega), toNat_joinNibbles, toNat_hiNibble]

/-- Locations are counted modulo 16 (R54). -/
theorem toNat_nibble_succ (n : Nibble) : (n + 1).toNat = (n.toNat + 1) % 16 := BitVec.toNat_add n 1

/-! ## What the accesses answer -/

/-- A location of a byte that has a value is its half of that byte (R50). -/
theorem Memory.nibble_eq_some {m : Memory} {n : Nat} {b : Byte} (h : m.read (n / 2) = some b) :
    m.nibble n = some (nibbleAt n b) := by
  rw [Memory.nibble, h, Option.map_some]

/-- MemRead of a location that does not exist raises OutOfBounds (R51). -/
theorem memRead_outOfBounds {n : Nat} (s : State) (large : 16 ≤ n) :
    memRead n s = .error (.raise (.outOfBounds n)) :=
  if_pos (by omega)

/-- A fault of MemWrite's checks is raised, and no state is answered (R52). -/
theorem memWrite_of_fault {n v : Nat} {f : Fault} (s : State) (h : memWriteFault n v = some f) :
    memWrite n v s = .error (.raise f) := by
  simp only [memWrite, h]

/-- With a nibble as the value, only the bounds check of MemWrite can fail (R52). -/
theorem memWriteFault_of_location {n v : Nat} (large : 16 ≤ n) (small : v ≤ 15) :
    memWriteFault n v = some (.outOfBounds n) := by
  rw [memWriteFault, if_pos (by omega), if_neg (by omega)]

/-- At an existing location, only the value check of MemWrite can fail (R52). -/
theorem memWriteFault_of_value {n v : Nat} (small : n < 16) (large : 15 < v) :
    memWriteFault n v = some (.valueTooLarge v) := by
  rw [memWriteFault, if_neg (by omega), if_pos large]

/-- Where both checks of MemWrite fail, one of the two faults is reported (R52, log entry 10). -/
theorem memWriteFault_of_both {n v : Nat} (location : 16 ≤ n) (value : 15 < v) :
    memWriteFault n v = some (.outOfBounds n) ∨ memWriteFault n v = some (.valueTooLarge v) := by
  rw [memWriteFault, if_pos (by omega), if_pos value]
  split
  · exact .inl rfl
  · exact .inr rfl

/-! ## The obligations -/

/-- Settles O39: an existing location answers its half of the byte, and the half's number is a quotient or a remainder. -/
theorem memReadReadsNibble : Obligations.MemReadReadsNibble := by
  refine fun s n => ⟨memRead_outOfBounds s, fun location b hb => ?_⟩
  refine ⟨nibbleAt n b, memRead_eq_ok location (Memory.nibble_eq_some hb), fun even => ?_, fun odd => ?_⟩
  · rw [nibbleAt_of_even even, toNat_hiNibble]
  · rw [nibbleAt_of_odd odd, toNat_loNibble]

/-- Settles O40: a write past both checks replaces one half of one byte, and each failed check is reported. -/
theorem memWriteWritesHalfByte : Obligations.MemWriteWritesHalfByte := by
  intro s n v
  refine ⟨fun location value b hb => ?_, fun location value => ?_, fun location value => ?_, fun location value => ?_⟩
  · have number : (BitVec.ofNat 4 v).toNat = v := Nat.mod_eq_of_lt (by omega)
    refine ⟨_, memWrite_eq_ok location (by omega) hb, fun k other => Memory.read_write_other _ _ other,
      _, Memory.read_write_same .., fun even => ?_, fun odd => ?_⟩
    · rw [toNat_replaceNibble_of_even even, number]
    · rw [toNat_replaceNibble_of_odd odd, number]
  · exact memWrite_of_fault s (memWriteFault_of_location location value)
  · exact memWrite_of_fault s (memWriteFault_of_value location value)
  · exact (memWriteFault_of_both location value).imp (memWrite_of_fault s) (memWrite_of_fault s)

/-- Settles O41: a fetched word joins the nibbles at a location and at the next, which are the two halves of one byte when
the location is even and lie in neighbouring bytes when it is odd. -/
theorem fetchWordPacksNibbles : Obligations.FetchWordPacksNibbles := by
  intro s n
  have wraps := toNat_nibble_succ n
  refine ⟨fun even b hb => ?_, fun odd b d hb hd => ?_, fun h l high low => ?_⟩
  · have sameByte : (n + 1).toNat / 2 = n.toNat / 2 := by omega
    have nextOdd : (n + 1).toNat % 2 = 1 := by omega
    have word := fetchWord_eq_ok (Memory.nibble_eq_some hb) (Memory.nibble_eq_some (sameByte ▸ hb))
    rwa [nibbleAt_of_even even, nibbleAt_of_odd nextOdd, join_hi_lo] at word
  · have nextByte : (n + 1).toNat / 2 = (n.toNat / 2 + 1) % 8 := by omega
    have nextEven : (n + 1).toNat % 2 = 0 := by omega
    refine ⟨_, fetchWord_eq_ok (Memory.nibble_eq_some hb) (Memory.nibble_eq_some (nextByte ▸ hd)), ?_⟩
    rw [nibbleAt_of_odd odd, nibbleAt_of_even nextEven, toNat_joinNibbles, toNat_loNibble, toNat_hiNibble]
  · rw [← wraps] at low
    exact ⟨_, fetchWord_eq_ok (memRead_ok high).2 (memRead_ok low).2, toNat_joinNibbles h l⟩

end Sys2Proof.Machine

/-! # Encoding family: the decoder's gate, the two formats and the step's instruction (R70, R72, R76)

What each instruction word decodes to, that an opcode has one of two formats, and the obligations on the decoder and on the
instruction a step executes. -/

namespace Sys2Proof

/-! ## The gate (R76) -/

/-- The gate is closed on opcode nibbles 6 and 7, and only while PORTS_ENABLED is false. -/
theorem Config.gated_iff (c : Config) (op : Nibble) :
    c.gated op = true ↔ (op = 6 ∨ op = 7) ∧ c.portsEnabled = false := by
  simp [Config.gated]

/-- A word with a gated opcode nibble decodes to the sentinel. -/
theorem decode_join_of_gated {c : Config} {op : Nibble} (gated : c.gated op = true) (x : Nibble) :
    decode c (joinNibbles op x) = .invalid op := by
  rw [decode, hiNibble_join, if_pos gated]

/-- Any other word decodes to the instruction of its OPCODE_MAP entry. -/
theorem decode_join_of_not_gated {c : Config} {op : Nibble} (gateOpen : ¬ c.gated op = true) (x : Nibble) :
    decode c (joinNibbles op x) = instrOf (opcodeAt c op) x := by
  rw [decode, hiNibble_join, if_neg gateOpen, loNibble_join]

/-- An opcode's number under the listing order is its place there (R74). -/
theorem opcodeAt_of_listingOrder {c : Config} (listed : c.opcodeMap = listingOrder) (op : Nibble) :
    opcodeAt c op = listingOrder[op.toNat]'op.isLt := by
  simp only [opcodeAt, listed]

/-- Settles O3: the gate is the decoder's one use of PORTS_ENABLED, and it is open on every nibble but 6 and 7; past it
only OPCODE_MAP is read. -/
theorem portGateDecides : Obligations.PortGateDecides := by
  intro c op x
  have openWhenEnabled (n : Nibble) (enabled : c.portsEnabled = true) : ¬ c.gated n = true := by
    simp [c.gated_iff, enabled]
  have openElsewhere (d : Config) (not6 : op ≠ 6) (not7 : op ≠ 7) : ¬ d.gated op = true := fun gated =>
    ((d.gated_iff op).1 gated).1.elim not6 not7
  refine ⟨fun port disabled => ?_, fun listed enabled => ⟨?_, ?_⟩, fun gateOpen => ?_, fun not6 not7 d sameMap => ?_⟩
  · exact decode_join_of_gated ((c.gated_iff op).2 ⟨port, disabled⟩) x
  · rw [decode_join_of_not_gated (openWhenEnabled 6 enabled), opcodeAt_of_listingOrder listed]
    rfl
  · rw [decode_join_of_not_gated (openWhenEnabled 7 enabled), opcodeAt_of_listingOrder listed]
    rfl
  · rcases gateOpen with ⟨not6, not7⟩ | enabled
    · exact decode_join_of_not_gated (openElsewhere c not6 not7) x
    · exact decode_join_of_not_gated (openWhenEnabled op enabled) x
  · rw [decode_join_of_not_gated (openElsewhere d not6 not7), decode_join_of_not_gated (openElsewhere c not6 not7)]
    simp only [opcodeAt, sameMap]

/-! ## The two formats (R72) -/

/-- An opcode is 2 locations long with the low nibble as its operand, or 1 location long with the low nibble ignored. -/
theorem instrOf_format (o : Opcode) :
    (∀ a, (instrOf o a).width = 2 ∧ (instrOf o a).operand = some a) ∨
    ∃ i : Instr, i.width = 1 ∧ i.operand = none ∧ ∀ a, instrOf o a = i := by
  cases o with
  | jmp | jze | jnz | lda | sta | adc | ldl => exact .inl fun _ => ⟨rfl, rfl⟩
  | hlt | get | put | rol | ror | ccf | scf | del | fla => exact .inr ⟨_, rfl, rfl, fun _ => rfl⟩

/-- Settles O5: the widths are the table's, and a word is the sentinel of its opcode nibble or has one of the two formats of
its opcode. -/
theorem formatsOfWords : Obligations.FormatsOfWords := by
  refine ⟨fun a => by simp only [Instr.width, and_self], by simp only [Instr.width, and_self], fun c op x y => ?_⟩
  by_cases gated : c.gated op = true
  · simp [decode_join_of_gated gated, Instr.operand]
  · simp only [decode_join_of_not_gated gated]
    rcases instrOf_format (opcodeAt c op) with twoLong | ⟨i, _, noOperand, ignores⟩
    · simp [twoLong, eq_comm]
    · simp [ignores, noOperand]

end Sys2Proof

namespace Sys2Proof.Machine

/-- Settles O7: a Ready state passes the guard, and the word it fetches joins the two nibbles. -/
theorem stepRunsDecodedInstruction : Obligations.StepRunsDecodedInstruction := by
  intro s h l ready high low
  simp only [step, loopGuard_ready ready, fetchInstr_eq_ok (fetchWord_eq_ok high low)]

end Sys2Proof.Machine

/-! # Control family: HLT, JMP, JZE and JNZ (R110 to R113)

What the words outside the gate decode to, the next states of the control instructions as record updates, and the
obligations on the four control instructions. -/

namespace Sys2Proof.Machine

/-! ## The words outside the gate (R74, R76) -/

/-- An opcode nibble other than 6 and 7 decodes to its entry of the listing order, whatever PORTS_ENABLED says. -/
theorem wordDecodes_of_not_port {op : Nibble} (not6 : op ≠ 6) (not7 : op ≠ 7) :
    WordDecodes op (instrOf (listingOrder[op.toNat]'op.isLt)) := by
  intro c x listed
  have gateOpen : ¬ c.gated op = true := fun gated => ((c.gated_iff op).1 gated).1.elim not6 not7
  rw [decode_join_of_not_gated gateOpen, opcodeAt_of_listingOrder listed]

/-! ## What a control instruction answers -/

/-- A write of HF, as the record with FR packed from its flags (R28). -/
theorem State.setHF_eq (s : State) (b : Bool) : s.setHF b = { s with fr := packFlags b s.ov s.zf s.cf } :=
  State.ext rfl rfl rfl (s.putBit_fr b).2.2.2 rfl rfl rfl rfl rfl rfl

/-- HLT sets HF and is counted; IP stays (R110). -/
theorem execHlt_eq (s : State) :
    execHlt s = .next { s with fr := packFlags true s.ov s.zf s.cf, count := s.count + 1 } := by
  rw [execHlt, State.setHF_eq]
  rfl

/-- The next state of a taken jump, JMP's included (R111 to R113). -/
def State.jumped (a : Nibble) (s : State) : State := { s with ip := a, count := s.count + 1 }

/-- The next state of a jump not taken (R95, R112, R113). -/
def State.passed (s : State) : State :=
  { s with ip := s.ip + 2, count := if s.cfg.countNotTaken = true then s.count + 1 else s.count }

theorem condJump_taken (a : Nibble) (s : State) : condJump true a s = .next (s.jumped a) := rfl

theorem condJump_not_taken (a : Nibble) (s : State) : condJump false a s = .next s.passed := by
  have counted : s.count + s.cfg.countNotTaken.toNat =
      if s.cfg.countNotTaken = true then s.count + 1 else s.count := by
    cases s.cfg.countNotTaken <;> rfl
  rw [State.passed, ← counted]
  rfl

/-- A machine that comes to the guard with HF set ends its run as Halted (R91, R92). -/
theorem step_halting {s : State} (running : s.status = .running) (image : s.mem.loaded = true)
    (halting : s.hf = true) : step s = .next (s.setStatus .halted) := by
  simp only [step, loopGuard_halting running image halting]

/-! ## The obligations -/

/-- Settles O11: HLT's one change besides the count is HF, and with HF set the next guard ends the run. -/
theorem hltHalts : Obligations.HltHalts := by
  refine ⟨wordDecodes_of_not_port (by decide) (by decide), fun s => ⟨execHlt_eq s, fun running image t ran => ?_⟩⟩
  cases ran
  exact step_halting running image (by simp)

/-- Settles O12: JMP is the jump that is always taken. -/
theorem jmpGoesToOperand : Obligations.JmpGoesToOperand :=
  ⟨wordDecodes_of_not_port (by decide) (by decide), fun s a => condJump_taken a s⟩

/-- Settles O13: JZE is taken on ZF and JNZ on its complement, so on either value of ZF one is taken and the other not. -/
theorem conditionalJumpsFollowZeroFlag : Obligations.ConditionalJumpsFollowZeroFlag := by
  refine ⟨wordDecodes_of_not_port (by decide) (by decide), wordDecodes_of_not_port (by decide) (by decide),
    fun s a => ⟨fun zero => ?_, fun nonzero => ?_⟩⟩
  · simp only [exec, execJze, execJnz, zero, Bool.not_true]
    exact ⟨condJump_taken a s, condJump_not_taken a s⟩
  · simp only [exec, execJze, execJnz, nonzero, Bool.not_false]
    exact ⟨condJump_not_taken a s, condJump_taken a s⟩

end Sys2Proof.Machine

/-! # Load and store family: LDA, STA and LDL (R120 to R122)

The flag a load sets and the next states of the loads as record updates, and the obligations on the three instructions. -/

namespace Sys2Proof.Machine

/-! ## What a load or a store answers -/

/-- The flag ZF is set to tells whether the written value is zero (R30). -/
theorem zeroFlag_eq_decide (v : Nibble) : zeroFlag v = decide (v = 0) := rfl

/-- LDA of a location that has a value (R120). -/
theorem execLda_eq {a v : Nibble} {s : State} (h : s.mem.nibble a.toNat = some v) :
    execLda a s = .next { s with
      ip := s.ip + 2, ac := v, fr := packFlags s.hf s.ov (zeroFlag v) s.cf, count := s.count + 1 } := by
  have operand (k : Nibble → Answer) : withOperand a (s.advanceIP 2) k = k v := withOperand_eq h
  rw [execLda, operand, State.writeAC_eq]
  rfl

/-- LDL of a location that has a value (R122). -/
theorem execLdl_eq {a v : Nibble} {s : State} (h : s.mem.nibble a.toNat = some v) :
    execLdl a s = .next { s with
      ip := s.ip + 2, li := v, fr := packFlags s.hf s.ov (zeroFlag v) s.cf, count := s.count + 1 } := by
  have operand (k : Nibble → Answer) : withOperand a (s.advanceIP 2) k = k v := withOperand_eq h
  rw [execLdl, operand, State.writeLI_eq]
  rfl

/-- A location has a value only where its byte has one (R50). -/
theorem Memory.read_of_nibble_ne_none {m : Memory} {n : Nat} (h : m.nibble n ≠ none) : ∃ b, m.read (n / 2) = some b := by
  rw [← Option.ne_none_iff_exists']
  exact fun noByte => h (by rw [Memory.nibble, noByte, Option.map_none])

/-! ## The obligations -/

/-- Settles O14: the operand's value reaches AC through the accessor, which sets ZF. -/
theorem ldaLoadsAccumulator : Obligations.LdaLoadsAccumulator := by
  refine ⟨wordDecodes_of_not_port (by decide) (by decide), fun s a v held => ?_⟩
  rw [← zeroFlag_eq_decide]
  exact execLda_eq held

/-- Settles O15: the operand's value reaches LI through the accessor, which sets ZF. -/
theorem ldlLoadsLoopIndex : Obligations.LdlLoadsLoopIndex := by
  refine ⟨wordDecodes_of_not_port (by decide) (by decide), fun s a v held => ?_⟩
  rw [← zeroFlag_eq_decide]
  exact execLdl_eq held

/-- Settles O16: the location's byte has a value, STA replaces one half of it, and a half replaced is read back at its own
location alone. -/
theorem staStoresAccumulator : Obligations.StaStoresAccumulator := by
  refine ⟨wordDecodes_of_not_port (by decide) (by decide), fun s a held => ?_⟩
  obtain ⟨b, hb⟩ := Memory.read_of_nibble_ne_none held
  have reads := nibble_write_replaceNibble s.ac hb
  exact ⟨_, execSta_eq hb, (reads _).trans (if_pos rfl), fun n other => (reads n).trans (if_neg other)⟩

end Sys2Proof.Machine

/-! # Rotate and add family: ROL, ROR, ADC and FLA (R140 to R143)

The next state that a result written with its carry makes, the values and carries of the four instructions as arithmetic
on AC and CF, and the obligations on the four instructions. -/

namespace Sys2Proof.Machine

/-! ## The next state of a result (R27, R30) -/

/-- A result with its carry, as the record with FR packed from its flags (R140 to R142). -/
theorem State.writeResult_eq (s : State) (v : Nibble) (carry : Bool) :
    s.writeResult v carry = { s with ac := v, fr := packFlags s.hf (s.cf == carry) (zeroFlag v) carry } := by
  obtain ⟨-, -, flags, -⟩ := ((s.writeAC v).setCF carry).putBit_fr (overflowFlag s.cf carry)
  simp only [State.setCF_hf, State.setCF_zf, State.setCF_cf, State.writeAC_hf, State.writeAC_zf] at flags
  exact State.ext rfl rfl rfl flags rfl rfl rfl rfl rfl rfl

/-- ROL, ROR and ADC differ in their length, the value and the carry alone. -/
theorem done_writeResult (s : State) (length v : Nibble) (carry : Bool) :
    done ((s.advanceIP length).writeResult v carry) = .next { s with
      ip := s.ip + length, ac := v, fr := packFlags s.hf (s.cf == carry) (zeroFlag v) carry, count := s.count + 1 } := by
  rw [State.writeResult_eq]
  rfl

/-! ## Values and carries -/

/-- The 5-bit value CF:AC rotated left by 1 is ROL's carry before ROL's value (R140). -/
theorem rotateLeft_carry_ac (ac : Nibble) (cf : Bool) :
    (BitVec.ofBool cf ++ ac).rotateLeft 1 = BitVec.ofBool (rolCarry ac) ++ rolValue ac cf := by
  revert ac cf; decide

theorem rorValue_eq_ofNat (ac : Nibble) (cf : Bool) :
    rorValue ac cf = BitVec.ofNat 4 (ac.toNat / 2 + 8 * cf.toNat) := by
  revert ac cf; decide

theorem rorCarry_eq_decide (ac : Nibble) : rorCarry ac = decide (ac.toNat % 2 = 1) :=
  Nat.testBit_zero ac.toNat

/-- The 8-bit scratch of ADC holds the exact sum (R142). -/
theorem toNat_adcSum (ac m : Nibble) (cf : Bool) :
    (adcSum ac m cf).toNat = ac.toNat + m.toNat + cf.toNat := by
  have carry : (bitNibble cf).toNat = cf.toNat := by cases cf <;> rfl
  have bit : cf.toNat ≤ 1 := cf.toNat_le
  simp only [adcSum, BitVec.toNat_add, BitVec.zeroExtend_eq_setWidth, BitVec.toNat_setWidth, carry]
  omega

theorem adcSum_toNat_lt (ac m : Nibble) (cf : Bool) : (adcSum ac m cf).toNat < 32 := by
  have bit : cf.toNat ≤ 1 := cf.toNat_le
  rw [toNat_adcSum]
  omega

theorem loNibble_eq_ofNat (b : Byte) : loNibble b = BitVec.ofNat 4 (b.toNat % 16) := by
  rw [← toNat_loNibble, BitVec.ofNat_toNat, BitVec.setWidth_eq]

/-- Bit 4 of a sum below 32 tells whether it reaches 16 (R142). -/
theorem sumCarry_eq_decide {sum : Byte} (h : sum.toNat < 32) : sumCarry sum = decide (16 ≤ sum.toNat) := by
  have bit : sumCarry sum = decide (sum.toNat / 16 % 2 = 1) := Nat.testBit_eq_decide_div_mod_eq
  rw [bit]
  exact decide_eq_decide.2 (by omega)

/-- The complement of AC's 4 bits is what AC lacks to 15 (R143). -/
theorem not_eq_ofNat (v : Nibble) : ~~~v = BitVec.ofNat 4 (15 - v.toNat) :=
  BitVec.eq_of_toNat_eq (by rw [BitVec.toNat_not, BitVec.toNat_ofNat]; omega)

theorem zeroFlag_not (v : Nibble) : zeroFlag (~~~v) = decide (v = 15) := by
  revert v; decide

/-! ## The obligations -/

/-- Settles O24: the scratch sum is exact and below 32, so AC is its remainder, CF its bit 4. -/
theorem adcAddsMemoryAndCarry : Obligations.AdcAddsMemoryAndCarry := by
  refine ⟨wordDecodes_of_not_port (by decide) (by decide), fun s a m held => ?_⟩
  have operand (k : Nibble → Answer) : withOperand a (s.advanceIP 2) k = k m := withOperand_eq held
  have small : (s.ac.toNat + m.toNat + s.cf.toNat) % 16 ≤ 15 := by omega
  have carry := sumCarry_eq_decide (adcSum_toNat_lt s.ac m s.cf)
  simp only [exec, execAdc, operand, done_writeResult, carry, loNibble_eq_ofNat, toNat_adcSum, zeroFlag_ofNat small]

/-- Settles O21: the rotated 5-bit value is the carry before the value, and its parts are what ROL writes. -/
theorem rolRotatesCarryAndAccumulator : Obligations.RolRotatesCarryAndAccumulator := by
  refine ⟨wordDecodes_of_not_port (by decide) (by decide), fun s => ?_⟩
  have value : (BitVec.ofBool (rolCarry s.ac) ++ rolValue s.ac s.cf).setWidth 4 = rolValue s.ac s.cf :=
    BitVec.setWidth_append_eq_right
  have carry : (BitVec.ofBool (rolCarry s.ac) ++ rolValue s.ac s.cf).getLsbD 4 = rolCarry s.ac := by
    rw [BitVec.getLsbD_append]
    simp
  simp only [rotateLeft_carry_ac, value, carry]
  exact done_writeResult s 1 _ _

/-- Settles O22: ROR's value and carry are the half of AC under CF, and AC's parity. -/
theorem rorRotatesCarryAndAccumulator : Obligations.RorRotatesCarryAndAccumulator := by
  refine ⟨wordDecodes_of_not_port (by decide) (by decide), fun s => ?_⟩
  simp only [← rorValue_eq_ofNat, ← rorCarry_eq_decide, ← zeroFlag_eq_decide]
  exact done_writeResult s 1 _ _

/-- Settles O25: the complement reaches AC through the accessor, which sets ZF where AC was 15. -/
theorem flaComplementsAccumulator : Obligations.FlaComplementsAccumulator := by
  refine ⟨wordDecodes_of_not_port (by decide) (by decide), fun s => ?_⟩
  rw [← not_eq_ofNat, ← zeroFlag_not, exec, execFla, State.writeAC_eq]
  rfl

end Sys2Proof.Machine

/-! # Flags and loop family: CCF, SCF and DEL (R150 to R152)

The write of CF as a record update, the next state that CCF and SCF share, and the obligations on the three
instructions. -/

namespace Sys2Proof.Machine

/-! ## What a write of CF answers -/

/-- A write of CF, as the record with FR packed from its flags (R25). -/
theorem State.setCF_eq (s : State) (b : Bool) : s.setCF b = { s with fr := packFlags s.hf s.ov s.zf b } :=
  State.ext rfl rfl rfl (s.putBit_fr b).1 rfl rfl rfl rfl rfl rfl

/-- CCF and SCF differ in the value of CF alone. -/
theorem done_setCF (s : State) (b : Bool) :
    done ((s.advanceIP 1).setCF b) = .next { s with
      ip := s.ip + 1, fr := packFlags s.hf s.ov s.zf b, count := s.count + 1 } := by
  rw [State.setCF_eq]
  rfl

/-! ## The obligations -/

/-- Settles O26: CCF and SCF are the two writes of CF, which keep the other three flags. -/
theorem carryFlagInstructions : Obligations.CarryFlagInstructions :=
  ⟨wordDecodes_of_not_port (by decide) (by decide), wordDecodes_of_not_port (by decide) (by decide),
    fun s => ⟨done_setCF s false, done_setCF s true⟩⟩

/-- Settles O27: DEL steps LI down through the accessor, which wraps and sets ZF where LI was 1. -/
theorem delDecrementsLoopIndex : Obligations.DelDecrementsLoopIndex := by
  refine ⟨wordDecodes_of_not_port (by decide) (by decide), fun s => ?_⟩
  obtain ⟨-, -, -, stepsDown, -⟩ := accessorsWrap (s.advanceIP 1)
  rw [exec, execDel, stepsDown]
  rfl

end Sys2Proof.Machine

/-! # Reset and hazards family: how much of a payload is the image (R195)

A load of a payload below and above 10 bytes, and the obligation. -/

namespace Sys2Proof.Machine

/-! ## What a load answers -/

/-- The tenth byte is what a load asks for: its pattern matches no shorter payload. -/
theorem State.load_of_length_lt (c : Config) {payload : List Byte} (short : payload.length < 10) :
    State.load c payload = none := by
  unfold State.load
  split
  · simp only [List.length_cons] at short
    omega
  · rfl

/-- A machine is built from any 10 bytes or more, and no byte after the tenth reaches it. -/
theorem State.load_take (c : Config) {payload : List Byte} (long : 10 ≤ payload.length) :
    ∃ s, State.load c payload = some s ∧ State.load c (payload.take 10) = some s :=
  match payload, long with
  | _ :: _ :: _ :: _ :: _ :: _ :: _ :: _ :: _ :: _ :: _, _ => ⟨_, rfl, rfl⟩

/-- Without a machine, a session ends before its first iteration. -/
theorem session_of_load_eq_none {c : Config} {payload : List Byte} (h : State.load c payload = none) (fuel : Nat) :
    session c payload fuel = .tooShort := by
  rw [session, h]

/-! ## The obligation -/

/-- Settles O45: a payload either ends before the tenth byte or has an image in front. -/
theorem imageIsFirstTenBytes : Obligations.ImageIsFirstTenBytes := by
  refine fun c payload => ⟨fun short => ?_, fun long => ?_⟩
  · have noMachine := State.load_of_length_lt c short
    exact ⟨noMachine, session_of_load_eq_none noMachine⟩
  · obtain ⟨s, loaded, loadedTake⟩ := State.load_take c long
    exact ⟨loaded.trans loadedTake.symm, s, loaded⟩

end Sys2Proof.Machine

/-! # What an instruction does, said once

`Executes i s t` lists the next states of every instruction, one constructor per way it can end; `exec_iff` ties it to
`exec`. The frames, the counter, the faults and the invariants below are case analyses of it. -/

namespace Sys2Proof.Machine

/-- The ways an instruction `i` can take the state `s` to a next state (R110 to R160), as updates of `s`. -/
inductive Executes (s : State) : Instr → State → Prop where
  | hlt : Executes s .hlt ((s.setHF true).setCount (s.count + 1))
  | jmp (a : Nibble) : Executes s (.jmp a) ((s.jumpTo a).setCount (s.count + 1))
  | jzeTaken (a : Nibble) (set : s.zf = true) : Executes s (.jze a) ((s.jumpTo a).setCount (s.count + 1))
  | jzePassed (a : Nibble) (clear : s.zf = false) :
    Executes s (.jze a) ((s.advanceIP 2).setCount (s.count + s.cfg.countNotTaken.toNat))
  | jnzTaken (a : Nibble) (clear : s.zf = false) : Executes s (.jnz a) ((s.jumpTo a).setCount (s.count + 1))
  | jnzPassed (a : Nibble) (set : s.zf = true) :
    Executes s (.jnz a) ((s.advanceIP 2).setCount (s.count + s.cfg.countNotTaken.toNat))
  | lda (a v : Nibble) (held : s.mem.nibble a.toNat = some v) :
    Executes s (.lda a) (((s.advanceIP 2).writeAC v).setCount (s.count + 1))
  | ldl (a v : Nibble) (held : s.mem.nibble a.toNat = some v) :
    Executes s (.ldl a) (((s.advanceIP 2).writeLI v).setCount (s.count + 1))
  | sta (a : Nibble) (b : Byte) (held : s.mem.read (a.toNat / 2) = some b) :
    Executes s (.sta a)
      (((s.advanceIP 2).setMem (s.mem.write (a.toNat / 2) (replaceNibble a.toNat s.ac b))).setCount (s.count + 1))
  | get (small : (s.inQ.headD 0).toNat ≤ 15) :
    Executes s .get
      (((popInput (s.advanceIP 1)).2.writeAC (BitVec.ofNat 4 (s.inQ.headD 0).toNat)).setCount (s.count + 1))
  | getFault (large : 15 < (s.inQ.headD 0).toNat) :
    Executes s .get (takeFault (.valueTooLarge (s.inQ.headD 0).toNat) (popInput (s.advanceIP 1)).2)
  | put : Executes s .put ((pushOutput s.ac (s.advanceIP 1)).setCount (s.count + 1))
  | rol : Executes s .rol
      (((s.advanceIP 1).writeResult (rolValue s.ac s.cf) (rolCarry s.ac)).setCount (s.count + 1))
  | ror : Executes s .ror
      (((s.advanceIP 1).writeResult (rorValue s.ac s.cf) (rorCarry s.ac)).setCount (s.count + 1))
  | adc (a m : Nibble) (held : s.mem.nibble a.toNat = some m) :
    Executes s (.adc a) (((s.advanceIP 2).writeResult (loNibble (adcSum s.ac m s.cf))
      (sumCarry (adcSum s.ac m s.cf))).setCount (s.count + 1))
  | ccf : Executes s .ccf (((s.advanceIP 1).setCF false).setCount (s.count + 1))
  | scf : Executes s .scf (((s.advanceIP 1).setCF true).setCount (s.count + 1))
  | del : Executes s .del (((s.advanceIP 1).writeLI (s.li + 15)).setCount (s.count + 1))
  | fla : Executes s .fla (((s.advanceIP 1).writeAC (~~~s.ac)).setCount (s.count + 1))
  | invalid (code : Nibble) : Executes s (.invalid code) (takeFault (.invalidInstruction code) s)

theorem Executes.of_exec {i : Instr} {s t : State} (h : exec i s = .next t) : Executes s i t := by
  cases i with
  | hlt => cases h; exact .hlt
  | jmp a => cases h; exact .jmp a
  | put => cases h; exact .put
  | rol => cases h; exact .rol
  | ror => cases h; exact .ror
  | ccf => cases h; exact .ccf
  | scf => cases h; exact .scf
  | del => cases h; exact .del
  | fla => cases h; exact .fla
  | invalid code => cases h; exact .invalid code
  | jze a =>
    rcases condJump_next h with ⟨set, rfl⟩ | ⟨clear, rfl⟩
    · exact .jzeTaken a set
    · exact .jzePassed a clear
  | jnz a =>
    rcases condJump_next h with ⟨clear, rfl⟩ | ⟨set, rfl⟩
    · exact .jnzTaken a (by simpa using clear)
    · exact .jnzPassed a (by simpa using set)
  | lda a =>
    obtain ⟨v, held, counted⟩ := withOperand_next h
    cases counted
    exact .lda a v held
  | ldl a =>
    obtain ⟨v, held, counted⟩ := withOperand_next h
    cases counted
    exact .ldl a v held
  | adc a =>
    obtain ⟨m, held, counted⟩ := withOperand_next h
    cases counted
    exact .adc a m held
  | sta a =>
    obtain ⟨b, held, rfl⟩ := execSta_next h
    exact .sta a b held
  | get =>
    rcases le_or_gt (s.inQ.headD 0).toNat 15 with small | large
    · cases (execGet_of_le small).symm.trans h
      exact .get small
    · cases (execGet_of_gt large).symm.trans h
      exact .getFault large

theorem Executes.exec_eq {i : Instr} {s t : State} (ran : Executes s i t) : exec i s = .next t := by
  cases ran with
  | hlt | jmp | put | rol | ror | ccf | scf | del | fla | invalid => rfl
  | jzeTaken a flag | jzePassed a flag | jnzTaken a flag | jnzPassed a flag =>
    simp only [exec, execJze, execJnz, flag]
    rfl
  | lda a v held | ldl a v held | adc a v held =>
    have operand (k : Nibble → Answer) : withOperand a (s.advanceIP 2) k = k v := withOperand_eq held
    simp only [exec, execLda, execLdl, execAdc, operand]
    rfl
  | sta a b held => exact execSta_eq held
  | get small => exact execGet_of_le small
  | getFault large => exact execGet_of_gt large

/-- An instruction answers a next state exactly where it is one of those listed. -/
theorem exec_iff {i : Instr} {s t : State} : exec i s = .next t ↔ Executes s i t :=
  ⟨Executes.of_exec, Executes.exec_eq⟩

end Sys2Proof.Machine

/-! # What an instruction leaves unchanged (R34 to R39, R45)

The frames, field by field, each a case analysis of `Executes`. -/

namespace Sys2Proof.Machine

/-- Only STA writes memory, and only one half of one byte that has a value (R34, R121). -/
theorem Executes.mem_cases {i : Instr} {s t : State} (ran : Executes s i t) :
    t.mem = s.mem ∨ ∃ a b, i = .sta a ∧ s.mem.read (a.toNat / 2) = some b ∧
      t.mem = s.mem.write (a.toNat / 2) (replaceNibble a.toNat s.ac b) := by
  cases ran with
  | sta a b held => exact .inr ⟨a, b, rfl, held, rfl⟩
  | get | getFault => exact .inl (popInput_mem _)
  | _ => exact .inl rfl

theorem Executes.mem_loaded {i : Instr} {s t : State} (ran : Executes s i t) (image : s.mem.loaded = true) :
    t.mem.loaded = true := by
  rcases ran.mem_cases with kept | ⟨a, b, _, _, written⟩
  · rwa [kept]
  · rw [written]
    exact Memory.loaded_write _ _ image

theorem Executes.mem_wf {i : Instr} {s t : State} (ran : Executes s i t) (wf : s.mem.wf = true) : t.mem.wf = true := by
  rcases ran.mem_cases with kept | ⟨a, b, _, _, written⟩
  · rwa [kept]
  · rw [written]
    exact Memory.wf_write _ wf (by omega)

/-- Only GET takes from inQ, and no more than its front entry (R35). -/
theorem Executes.inQ_eq {i : Instr} {s t : State} (ran : Executes s i t) :
    t.inQ = if i = .get then s.inQ.tail else s.inQ := by
  cases ran with
  | get | getFault => exact popInput_inQ _
  | _ => rfl

/-- Only PUT changes outQ (R36). -/
theorem Executes.outQ_eq {i : Instr} {s t : State} (ran : Executes s i t) :
    t.outQ = if i = .put then trimQueue s.cfg.qcap (s.ac.zeroExtend 8 :: s.outQ) else s.outQ := by
  cases ran with
  | get | getFault => exact popInput_outQ _
  | _ => rfl

theorem Executes.cfg_eq {i : Instr} {s t : State} (ran : Executes s i t) : t.cfg = s.cfg := by
  cases ran with
  | get | getFault => exact popInput_cfg _
  | _ => rfl

/-- What an instruction adds to the counter when it does not fault (R38, R95): 1, but for a jump not taken. -/
def countedBy (i : Instr) (s : State) : Nat :=
  match i with
  | .jze _ => if s.zf then 1 else s.cfg.countNotTaken.toNat
  | .jnz _ => if s.zf then s.cfg.countNotTaken.toNat else 1
  | _ => 1

/-- An instruction leaves the status and is counted, or takes one of two faults with HF set and the count as it was
(R96, R97, R171 to R173, R177). -/
theorem Executes.status_cases {i : Instr} {s t : State} (ran : Executes s i t) :
    (t.status = s.status ∧ t.count = s.count + countedBy i s) ∨
    (t.hf = true ∧ t.count = s.count ∧
      ((∃ code, i = .invalid code ∧ t.status = .faulted (.invalidInstruction code)) ∨
       (15 < (s.inQ.headD 0).toNat ∧ t.status = .faulted (.valueTooLarge (s.inQ.headD 0).toNat)))) := by
  cases ran with
  | invalid code => exact .inr ⟨takeFault_hf .., rfl, .inl ⟨code, rfl, rfl⟩⟩
  | getFault large => exact .inr ⟨takeFault_hf .., popInput_count _, .inr ⟨large, rfl⟩⟩
  | get => exact .inl ⟨popInput_status _, rfl⟩
  | jzeTaken a flag | jzePassed a flag | jnzTaken a flag | jnzPassed a flag =>
    exact .inl ⟨rfl, by simp [countedBy, flag]⟩
  | _ => exact .inl ⟨rfl, rfl⟩

/-- A jump whose condition fails counts by COUNT_NOT_TAKEN (R95). -/
theorem countedBy_of_jumpFails {i : Instr} {s : State} (fails : jumpFails i s) :
    countedBy i s = s.cfg.countNotTaken.toNat := by
  rcases fails with ⟨a, rfl, flag⟩ | ⟨a, rfl, flag⟩ <;> simp [countedBy, flag]

/-- Everything else is counted once (R95). -/
theorem countedBy_of_not_jumpFails {i : Instr} {s : State} (runs : ¬ jumpFails i s) : countedBy i s = 1 := by
  cases i with
  | jze a =>
    have taken : s.zf = true := by simpa [jumpFails] using runs
    simp [countedBy, taken]
  | jnz a =>
    have taken : s.zf = false := by simpa [jumpFails] using runs
    simp [countedBy, taken]
  | _ => rfl

/-! ## The obligations -/

/-- Settles O33: memory changes by STA's write alone. -/
theorem onlyStaWritesMemory : Obligations.OnlyStaWritesMemory := by
  intro i s t h notSta k
  rcases (exec_iff.1 h).mem_cases with kept | ⟨a, _, isSta, _⟩
  · rw [kept]
  · exact absurd isSta (notSta a)

/-- Settles O34: STA writes one byte, of which the other half reads as before. -/
theorem staFrame : Obligations.StaFrame := by
  intro s t a h
  obtain ⟨b, held, rfl⟩ := execSta_next h
  refine ⟨rfl, rfl, rfl, rfl, rfl, rfl, rfl, fun k other => ?_, fun n other => ?_⟩
  · exact Memory.read_write_other _ _ other
  · exact (nibble_write_replaceNibble s.ac held n).trans (if_neg other)

/-- Settles O35: each update of the state writes the registers and flags of its row of the table. -/
theorem registerAndFlagFrame : Obligations.RegisterAndFlagFrame := by
  intro i s t h
  cases exec_iff.1 h <;> simp [writesAC, writesLI, writesCF, writesZF, writesOF]

/-- Settles O36: GET takes inQ's front entry, PUT alone touches outQ. -/
theorem queueFrame : Obligations.QueueFrame := by
  intro i s t h
  have ran := exec_iff.1 h
  rw [ran.inQ_eq, ran.outQ_eq]
  exact ⟨fun other => if_neg other, fun isGet => if_pos isGet, fun other => if_neg other⟩

/-- Settles O37: a fault keeps the count, and an instruction that runs on adds what it counts. -/
theorem counterAdvance : Obligations.CounterAdvance := by
  intro i s t running h
  rcases (exec_iff.1 h).status_cases with ⟨status, counted⟩ | ⟨_, kept, fault⟩
  · rw [running] at status
    refine ⟨.inl status, fun f faulted => by simp [status] at faulted, fun _ =>
      ⟨fun ⟨fails, uncounted⟩ => ?_, fun counts => ?_⟩⟩
    · simp [counted, countedBy_of_jumpFails fails, uncounted]
    · rw [counted]
      by_cases fails : jumpFails i s
      · simp [countedBy_of_jumpFails fails, counts.resolve_left (not_not.2 fails)]
      · rw [countedBy_of_not_jumpFails fails]
  · have faulted : ∃ f, t.status = .faulted f := by
      rcases fault with ⟨_, _, e⟩ | ⟨_, e⟩ <;> exact ⟨_, e⟩
    obtain ⟨f, e⟩ := faulted
    exact ⟨.inr ⟨f, e⟩, fun _ _ => kept, fun isRunning => by simp [e] at isRunning⟩

/-- Settles O38: neither the guard nor an instruction writes the configuration. -/
theorem configurationIsConstant : Obligations.ConfigurationIsConstant := by
  intro s t h
  rcases step_cases h with ⟨_, rfl⟩ | ⟨_, _, _, rfl⟩ | ⟨_, _, _, _, rfl⟩ | ⟨_, _, _, ran⟩
  · rfl
  · rfl
  · rfl
  · exact (exec_iff.1 ran).cfg_eq

end Sys2Proof.Machine

/-! # Encoder and decoder undo each other (R70 to R80) -/

namespace Sys2Proof

/-- An instruction without an opcode is the sentinel. -/
theorem Instr.eq_invalid_of_opcode {i : Instr} (h : i.opcode = none) : ∃ code, i = .invalid code := by
  cases i with
  | invalid code => exact ⟨code, rfl⟩
  | _ => cases h

/-- The instruction of its own opcode, with its operand where it has one. -/
theorem instrOf_opcode {i : Instr} {o : Opcode} (h : i.opcode = some o) (fill : Nibble) :
    instrOf o (i.operand.getD fill) = i := by
  cases i <;> cases h <;> rfl

theorem Instr.number_of_opcode {i : Instr} {o : Opcode} (h : i.opcode = some o) (c : Config) :
    i.number c = c.numberOf o := by
  cases i <;> cases h <;> rfl

theorem Instr.wf_of_opcode {i : Instr} {o : Opcode} (h : i.opcode = some o) (c : Config) :
    i.wf c = (c.opcodeMap.toList.contains o && !c.gated (c.numberOf o)) := by
  cases i <;> cases h <;> rfl

/-- An opcode's operand is the low nibble of its word, or it has none and the low nibble is free (R72). -/
theorem operand_instrOf_getD (o : Opcode) (a : Nibble) : (instrOf o a).operand.getD a = a := by
  cases o <;> rfl

/-- A 1-location form has no operand (R72, R75). -/
theorem Instr.operand_of_width {i : Instr} (h : i.width ≠ 2) : i.operand = none := by
  cases i with
  | jmp | jze | jnz | lda | sta | adc | ldl | invalid => exact absurd rfl h
  | _ => rfl

/-! ## The obligations -/

/-- Settles O1: the sentinel's word is gated, and any other's is not and has the opcode's number, where the map gives the
opcode back. -/
theorem decodeUndoesEncode : Obligations.DecodeUndoesEncode := by
  intro c fill i wf
  rcases hasOpcode : i.opcode with _ | o
  · obtain ⟨code, rfl⟩ := Instr.eq_invalid_of_opcode hasOpcode
    exact decode_join_of_gated wf fill
  · rw [Instr.wf_of_opcode hasOpcode, Bool.and_eq_true, Bool.not_eq_true'] at wf
    obtain ⟨inMap, gateOpen⟩ := wf
    rw [encode, Instr.number_of_opcode hasOpcode, decode_join_of_not_gated (by simp [gateOpen]),
      opcodeAt_numberOf inMap, instrOf_opcode hasOpcode]

/-- Settles O2: a word's opcode nibble is the number of what it decodes to, the low nibble its operand or the fill. -/
theorem encodeUndoesDecode : Obligations.EncodeUndoesDecode := by
  intro c w mapOk
  obtain ⟨op, x, rfl⟩ : ∃ op x, w = joinNibbles op x := ⟨_, _, (join_hi_lo w).symm⟩
  rw [loNibble_join]
  by_cases gated : c.gated op = true
  · rw [decode_join_of_gated gated]
    exact ⟨gated, rfl⟩
  · rw [decode_join_of_not_gated gated]
    have hasOpcode := opcode_instrOf (opcodeAt c op) x
    refine ⟨?_, ?_⟩
    · rw [Instr.wf_of_opcode hasOpcode, opcodeAt_mem, numberOf_opcodeAt mapOk]
      simpa using gated
    · rw [encode, Instr.number_of_opcode hasOpcode, numberOf_opcodeAt mapOk, operand_instrOf_getD]

/-- Settles O4: each word is split into its two nibbles and the map or the gate is read. -/
theorem tableWordsDecode : Obligations.TableWordsDecode := by
  unfold Obligations.TableWordsDecode
  decide

end Sys2Proof

namespace Sys2Proof.Machine

/-- Where the opcode's location holds the instruction's number, and the next its operand or, without one, anything, a fetch
decodes to it (R80). -/
theorem fetch_of_encoded {s : State} {l x : Nibble} {i : Instr} (wf : i.wf s.cfg = true)
    {m : Memory} (number : m.nibble l.toNat = some (i.number s.cfg))
    (operand : m.nibble (l + 1).toNat = some (i.operand.getD x)) :
    ∃ w, fetchWord l { s with mem := m } = .ok w ∧ decode s.cfg w = i :=
  ⟨encode s.cfg x i, fetchWord_eq_ok number operand, decodeUndoesEncode s.cfg x i wf⟩

/-- Settles O6: the number is read back at the location, and the next location holds what was put there or, after a
1-location form, some nibble as a fill. -/
theorem assembledInstructionIsFetched : Obligations.AssembledInstructionIsFetched := by
  intro s fill l i image wf
  have placed := nibble_putNibble (i.number s.cfg) image l.isLt
  have image' : (Memory.putNibble l.toNat (i.number s.cfg) s.mem).loaded = true := Memory.loaded_write _ _ image
  by_cases twoLong : i.width = 2
  · have operandPlaced := nibble_putNibble (i.operand.getD fill) image' (l + 1).isLt
    simp only [assembleAt, if_pos twoLong]
    refine fetch_of_encoded (x := fill) wf ?_ ?_
    · rw [operandPlaced, if_neg (succ_toNat_ne l).symm, placed, if_pos rfl]
    · rw [operandPlaced, if_pos rfl]
  · obtain ⟨x, following⟩ := Memory.nibble_of_loaded image' (l + 1).toNat (l + 1).isLt
    simp only [assembleAt, if_neg twoLong]
    refine fetch_of_encoded (x := x) wf ?_ ?_
    · rw [placed, if_pos rfl]
    · rw [following, Instr.operand_of_width twoLong, Option.getD_none]

/-- A fetched word's halves are the nibbles at the location and at the next (R54). -/
theorem fetchWord_ok {n : Nibble} {s : State} {w : Byte} (h : fetchWord n s = .ok w) :
    s.mem.nibble n.toNat = some (hiNibble w) ∧ s.mem.nibble (n + 1).toNat = some (loNibble w) := by
  unfold fetchWord at h
  split at h
  · cases h
  next x high =>
    split at h
    · cases h
    next y low =>
      cases h
      rw [hiNibble_join, loNibble_join]
      exact ⟨(memRead_ok high).2, (memRead_ok low).2⟩

/-- Settles O17: STA's location reads back AC, whichever half of the word it is fetched as. -/
theorem fetchSeesStore : Obligations.FetchSeesStore := by
  intro s t a n w stored fetched
  obtain ⟨b, held, rfl⟩ := execSta_next stored
  obtain ⟨high, low⟩ := fetchWord_ok fetched
  have readsBack := (nibble_write_replaceNibble s.ac held a.toNat).trans (if_pos rfl)
  refine ⟨fun atHigh => ?_, fun atLow => ?_⟩
  · rw [atHigh] at high
    exact Option.some.inj (high.symm.trans readsBack)
  · rw [atLow] at low
    exact Option.some.inj (low.symm.trans readsBack)

end Sys2Proof.Machine

/-! # The step: faults, results and the invariants of a run (R35, R40, R96 to R98, R171 to R179) -/

namespace Sys2Proof.Machine

/-! ## What a machine with an image answers (R53, R77) -/

theorem condJump_answers (taken : Bool) (a : Nibble) (s : State) : ∃ t, condJump taken a s = .next t := by
  cases taken <;> exact ⟨_, rfl⟩

/-- In a machine with an image every instruction answers a next state. -/
theorem exec_of_loaded {s : State} (image : s.mem.loaded = true) (i : Instr) : ∃ t, exec i s = .next t := by
  have operand (a : Nibble) : ∃ v, s.mem.nibble a.toNat = some v := Memory.nibble_of_loaded image a.toNat a.isLt
  cases i with
  | hlt | jmp | put | rol | ror | ccf | scf | del | fla | invalid => exact ⟨_, rfl⟩
  | jze a => exact condJump_answers s.zf a s
  | jnz a => exact condJump_answers (!s.zf) a s
  | lda a =>
    obtain ⟨v, held⟩ := operand a
    exact ⟨_, (Executes.lda a v held).exec_eq⟩
  | ldl a =>
    obtain ⟨v, held⟩ := operand a
    exact ⟨_, (Executes.ldl a v held).exec_eq⟩
  | adc a =>
    obtain ⟨v, held⟩ := operand a
    exact ⟨_, (Executes.adc a v held).exec_eq⟩
  | sta a =>
    obtain ⟨b, held⟩ := (Memory.loaded_iff _).1 image (a.toNat / 2) (by omega)
    exact ⟨_, execSta_eq held⟩
  | get =>
    rcases le_or_gt (s.inQ.headD 0).toNat 15 with small | large
    · exact ⟨_, execGet_of_le small⟩
    · exact ⟨_, execGet_of_gt large⟩

/-- A machine whose run goes on steps to what its next instruction answers. -/
theorem step_of_ready {s : State} (ready : s.Ready) : ∃ i t, exec i s = .next t ∧ step s = .next t := by
  obtain ⟨w, fetched⟩ := fetchWord_of_loaded ready.image s.ip
  obtain ⟨t, ran⟩ := exec_of_loaded ready.image (decode s.cfg w)
  refine ⟨_, t, ran, ?_⟩
  simp only [step, loopGuard_ready ready, fetchInstr_eq_ok fetched, ran]

/-- A step answers a next state, or refuses a running machine without a complete image. -/
theorem step_next_or_refused (s : State) :
    (∃ t, step s = .next t) ∨ (s.mem.loaded = false ∧ step s = .refused .noImage) := by
  rcases passed : loopGuard s with _ | x
  · obtain ⟨_, t, _, stepped⟩ := step_of_ready (ready_of_loopGuard passed)
    exact .inl ⟨t, stepped⟩
  · have answers : step s = x := by simp only [step, passed]
    rw [answers]
    rcases loopGuard_cases passed with ⟨_, rfl⟩ | ⟨_, noImage, rfl⟩ | ⟨_, _, _, rfl⟩ | ⟨_, _, _, _, rfl⟩
    · exact .inl ⟨_, rfl⟩
    · exact .inr ⟨noImage, rfl⟩
    · exact .inl ⟨_, rfl⟩
    · exact .inl ⟨_, rfl⟩

/-- A step keeps the image (R53). -/
theorem step_loaded {s t : State} (h : step s = .next t) (image : s.mem.loaded = true) : t.mem.loaded = true := by
  rcases step_cases h with ⟨_, rfl⟩ | ⟨_, _, _, rfl⟩ | ⟨_, _, _, _, rfl⟩ | ⟨_, _, _, ran⟩
  · exact image
  · exact image
  · exact image
  · exact (exec_iff.1 ran).mem_loaded image

/-- Settles O51: an image is never lost, and with one no step is refused. -/
theorem loadedMachineAlwaysSteps : Obligations.LoadedMachineAlwaysSteps := by
  intro s image
  rcases step_next_or_refused s with ⟨t, stepped⟩ | ⟨noImage, _⟩
  · exact ⟨t, stepped, step_loaded stepped image⟩
  · exact absurd (image.symm.trans noImage) (by decide)

/-- Settles O32: a step answers a next state or a refusal. -/
theorem noStepAnswersFault : Obligations.NoStepAnswersFault := by
  intro s f faults
  rcases step_next_or_refused s with ⟨t, stepped⟩ | ⟨_, refused⟩
  · cases stepped.symm.trans faults
  · cases refused.symm.trans faults

/-! ## Faults (R171 to R175) -/

/-- Only a gated word decodes to the sentinel (R76). -/
theorem gated_of_decode_eq_invalid {c : Config} {w : Byte} {code : Nibble} (h : decode c w = .invalid code) :
    c.gated code = true := by
  rw [← join_hi_lo w] at h
  by_cases gated : c.gated (hiNibble w) = true
  · rw [decode_join_of_gated gated] at h
    cases h
    exact gated
  · rw [decode_join_of_not_gated gated] at h
    have hasOpcode := opcode_instrOf (opcodeAt c (hiNibble w)) (loNibble w)
    rw [h] at hasOpcode
    cases hasOpcode

/-- A front entry that is not 0 is the first of a queue (R130). -/
theorem exists_cons_of_headD_pos {q : List Byte} (h : 0 < (q.headD 0).toNat) : ∃ rest, q = q.headD 0 :: rest := by
  cases q with
  | nil => exact absurd h (by decide)
  | cons v rest => exact ⟨rest, rfl⟩

/-- Settles O29: the guard takes no fault, and an instruction takes two: the sentinel's, which only a gated word decodes to,
and GET's of a front entry above 15. -/
theorem onlyTwoFaultsAreReachable : Obligations.OnlyTwoFaultsAreReachable := by
  intro s t f running h faulted
  rcases step_cases h with ⟨ended, _⟩ | ⟨_, _, _, rfl⟩ | ⟨_, _, _, _, rfl⟩ | ⟨_, w, _, ran⟩
  · exact absurd running ended
  · cases faulted
  · cases faulted
  · rcases (exec_iff.1 ran).status_cases with ⟨kept, _⟩ | ⟨_, _, ⟨code, decoded, status⟩ | ⟨large, status⟩⟩
    · rw [kept, running] at faulted
      cases faulted
    · cases status.symm.trans faulted
      obtain ⟨port, disabled⟩ := (s.cfg.gated_iff code).1 (gated_of_decode_eq_invalid decoded)
      exact .inl ⟨code, rfl, port, disabled⟩
    · cases status.symm.trans faulted
      obtain ⟨rest, front⟩ := exists_cons_of_headD_pos (Nat.zero_lt_of_lt large)
      exact .inr ⟨_, rest, front, large, rfl⟩

/-! ## Queues of nibbles (R35) -/

theorem mem_of_mem_trimQueue {cap : Nat} {q : List Byte} {v : Byte} (h : v ∈ trimQueue cap q) : v ∈ q := by
  unfold trimQueue at h
  split at h
  · exact List.dropLast_subset q h
  · exact h

/-- An instruction puts no entry above 15 in a queue: GET only removes one, and PUT's is AC. -/
theorem Executes.queuesInRange {i : Instr} {s t : State} (ran : Executes s i t) (range : s.queuesInRange) :
    t.queuesInRange := by
  obtain ⟨input, output⟩ := range
  refine ⟨fun v hv => input v ?_, fun v hv => ?_⟩
  · rw [ran.inQ_eq] at hv
    split at hv
    · exact List.mem_of_mem_tail hv
    · exact hv
  · rw [ran.outQ_eq] at hv
    split at hv
    · rcases List.mem_cons.1 (mem_of_mem_trimQueue hv) with rfl | old
      · rw [BitVec.zeroExtend_eq_setWidth, BitVec.toNat_setWidth]
        omega
      · exact output v old
    · exact output v hv

/-- Settles O30: with nibbles in the queue, the one cause of ValueTooLarge is absent. -/
theorem nibbleQueuesStayNibble : Obligations.NibbleQueuesStayNibble := by
  intro s t range h
  refine ⟨?_, fun running v tooLarge => ?_⟩
  · rcases step_cases h with ⟨_, rfl⟩ | ⟨_, _, _, rfl⟩ | ⟨_, _, _, _, rfl⟩ | ⟨_, _, _, ran⟩
    · exact range
    · exact range
    · exact range
    · exact (exec_iff.1 ran).queuesInRange range
  · rcases onlyTwoFaultsAreReachable s t _ running h tooLarge with ⟨_, other, _⟩ | ⟨u, _, front, large, _⟩
    · cases other
    · exact absurd (range.1 u (by simp [front])) (not_le.2 large)

/-! ## The end of a run (R96 to R98, R104) -/

/-- A step that ends the run does not count (R97, R98). -/
theorem step_ended_count {s t : State} (running : s.status = .running) (h : step s = .next t)
    (ended : t.status ≠ .running) : t.count = s.count := by
  rcases step_cases h with ⟨_, rfl⟩ | ⟨_, _, _, rfl⟩ | ⟨_, _, _, _, rfl⟩ | ⟨_, _, _, ran⟩
  · rfl
  · rfl
  · rfl
  · rcases (exec_iff.1 ran).status_cases with ⟨kept, _⟩ | ⟨_, uncounted, _⟩
    · exact absurd (kept.trans running) ended
    · exact uncounted

/-- Settles O31: the result is read from the status, with the count the last step left and the configuration no step
changes. -/
theorem endedRunResult : Obligations.EndedRunResult := by
  intro s t running h
  have count := step_ended_count running h
  have cfg := configurationIsConstant s t h
  refine ⟨fun status => ?_, count, fun status => ?_, fun code status surfaces => ?_, fun code status surfaces => ?_,
    fun v status => ?_⟩
  · simp [State.result, status]
  · rcases status with status | status <;> simp [State.result, status, count]
  · simp [State.result, status, surfaced, cfg, surfaces, count]
  · simp [State.result, status, surfaced, cfg, surfaces, count]
  · simp [State.result, status, surfaced, count]

/-! ## The invariant of a run (R35, R36, R38, R40, R200) -/

/-- An instruction's count is at most 1. -/
theorem countedBy_le_one (i : Instr) (s : State) : countedBy i s ≤ 1 := by
  have uncounted : s.cfg.countNotTaken.toNat ≤ 1 := Bool.toNat_le _
  unfold countedBy
  repeat' split
  all_goals omega

theorem Executes.count_le {i : Instr} {s t : State} (ran : Executes s i t) : t.count ≤ s.count + 1 := by
  have atMostOne := countedBy_le_one i s
  rcases ran.status_cases with ⟨_, counted⟩ | ⟨_, kept, _⟩ <;> omega

/-- An instruction keeps the invariant in a machine whose run goes on: the budget has room for what it counts. -/
theorem Executes.inv {i : Instr} {s t : State} (ran : Executes s i t) (ready : s.Ready) (inv : s.Inv) : t.Inv where
  memory := ran.mem_wf inv.memory
  input := by
    have bound := inv.input
    rw [ran.inQ_eq, ran.cfg_eq]
    split
    · rw [List.length_tail]
      omega
    · exact bound
  output := by
    rw [ran.outQ_eq, ran.cfg_eq]
    split
    · exact length_trimQueue_cons_le _ inv.output
    · exact inv.output
  counter := by
    have room := ready.budgetLeft
    have count := ran.count_le
    rw [ran.cfg_eq]
    omega
  status := by
    rcases ran.status_cases with ⟨kept, _⟩ | ⟨halted, _, ⟨_, _, status⟩ | ⟨_, status⟩⟩
    · simp only [State.statusAgrees, kept, ready.running]
    · simpa only [State.statusAgrees, status] using halted
    · simpa only [State.statusAgrees, status] using halted

/-- The end of a run keeps the invariant where the new status says what HF and the count are. -/
theorem State.Inv.setStatus {s : State} {x : Status} (inv : s.Inv) (agrees : (s.setStatus x).statusAgrees) :
    (s.setStatus x).Inv :=
  ⟨inv.memory, inv.input, inv.output, inv.counter, agrees⟩

/-- Settles O48: the guard ends a run with the status that HF and the count call for, and an instruction runs only with
budget left. -/
theorem stepKeepsInvariant : Obligations.StepKeepsInvariant := by
  intro s t inv h
  rcases step_cases h with ⟨_, rfl⟩ | ⟨_, _, halting, rfl⟩ | ⟨_, _, going, spent, rfl⟩ | ⟨ready, _, _, ran⟩
  · exact inv
  · exact inv.setStatus halting
  · exact inv.setStatus ⟨le_antisymm inv.counter spent, going⟩
  · exact (exec_iff.1 ran).inv ready inv

end Sys2Proof.Machine

/-! # Rotates as one 5-bit value (R140, R141), and what no instruction reads (R36, R38) -/

namespace Sys2Proof.Machine

/-- The 5-bit value that ROL and ROR rotate: CF above AC (R140). -/
def State.carryAc (s : State) : BitVec 5 := BitVec.ofBool s.cf ++ s.ac

/-- The 5-bit value determines AC and CF. -/
theorem State.ac_cf_of_carryAc {s t : State} (h : t.carryAc = s.carryAc) : t.ac = s.ac ∧ t.cf = s.cf := by
  have all : ∀ (v w : Nibble) (b c : Bool), BitVec.ofBool b ++ v = BitVec.ofBool c ++ w → v = w ∧ b = c := by decide
  exact all _ _ _ _ h

/-- The 5-bit value rotated right by 1 is ROR's carry before ROR's value (R141). -/
theorem rotateRight_carry_ac (ac : Nibble) (cf : Bool) :
    (BitVec.ofBool cf ++ ac).rotateRight 1 = BitVec.ofBool (rorCarry ac) ++ rorValue ac cf := by
  revert ac cf; decide

/-- ROL rotates the 5-bit value left and advances IP by 1. -/
theorem carryAc_of_rol {s t : State} (h : exec .rol s = .next t) :
    t.carryAc = s.carryAc.rotateLeft 1 ∧ t.ip = s.ip + 1 := by
  cases h
  simp [State.carryAc, rotateLeft_carry_ac]

/-- ROR rotates the 5-bit value right. -/
theorem carryAc_of_ror {s t : State} (h : exec .ror s = .next t) : t.carryAc = s.carryAc.rotateRight 1 := by
  cases h
  simp [State.carryAc, rotateRight_carry_ac]

/-- Left and right rotations undo each other, and five rotations of 5 bits are a full cycle. -/
theorem rotate_cycle (x : BitVec 5) :
    (x.rotateLeft 1).rotateRight 1 = x ∧ (x.rotateRight 1).rotateLeft 1 = x ∧
    ((((x.rotateLeft 1).rotateLeft 1).rotateLeft 1).rotateLeft 1).rotateLeft 1 = x := by
  revert x; decide

/-- Settles O23: the instructions are the rotations of the 5-bit value, which cancel and have order 5. -/
theorem rotatesUndoEachOther : Obligations.RotatesUndoEachOther := by
  refine ⟨fun s t u h1 h2 => ?_, fun s t h1 u h2 => ?_, fun s t u v w x h1 h2 h3 h4 h5 => ?_⟩
  · apply State.ac_cf_of_carryAc
    rw [carryAc_of_ror h2, (carryAc_of_rol h1).1, (rotate_cycle _).1]
  · apply State.ac_cf_of_carryAc
    rw [(carryAc_of_rol h2).1, carryAc_of_ror h1, (rotate_cycle _).2.1]
  · obtain ⟨value1, ip1⟩ := carryAc_of_rol h1
    obtain ⟨value2, ip2⟩ := carryAc_of_rol h2
    obtain ⟨value3, ip3⟩ := carryAc_of_rol h3
    obtain ⟨value4, ip4⟩ := carryAc_of_rol h4
    obtain ⟨value5, ip5⟩ := carryAc_of_rol h5
    have restored : x.ac = s.ac ∧ x.cf = s.cf := by
      apply State.ac_cf_of_carryAc
      rw [value5, value4, value3, value2, value1, (rotate_cycle _).2.2]
    refine ⟨restored.1, restored.2, ?_⟩
    rw [ip5, ip4, ip3, ip2, ip1]
    simp only [BitVec.add_assoc]
    rfl

/-! ## The counter and the output queue -/

/-- The state with another count and another output queue. -/
def State.withCountOutQ (n : Nat) (q : List Byte) (s : State) : State := { s with count := n, outQ := q }

/-- With another count and another output queue every instruction goes the same way, and what it does differs in these two
alone. -/
theorem Executes.withCountOutQ {i : Instr} {s t : State} (n : Nat) (q : List Byte) (ran : Executes s i t) :
    ∃ u, Executes (s.withCountOutQ n q) i u ∧ u.withCountOutQ t.count t.outQ = t := by
  cases ran with
  | hlt => exact ⟨_, .hlt, rfl⟩
  | jmp a => exact ⟨_, .jmp a, rfl⟩
  | jzeTaken a set => exact ⟨_, .jzeTaken a set, rfl⟩
  | jzePassed a clear => exact ⟨_, .jzePassed a clear, rfl⟩
  | jnzTaken a clear => exact ⟨_, .jnzTaken a clear, rfl⟩
  | jnzPassed a set => exact ⟨_, .jnzPassed a set, rfl⟩
  | lda a v held => exact ⟨_, .lda a v held, rfl⟩
  | ldl a v held => exact ⟨_, .ldl a v held, rfl⟩
  | adc a m held => exact ⟨_, .adc a m held, rfl⟩
  | sta a b held => exact ⟨_, .sta a b held, rfl⟩
  | put => exact ⟨_, .put, rfl⟩
  | rol => exact ⟨_, .rol, rfl⟩
  | ror => exact ⟨_, .ror, rfl⟩
  | ccf => exact ⟨_, .ccf, rfl⟩
  | scf => exact ⟨_, .scf, rfl⟩
  | del => exact ⟨_, .del, rfl⟩
  | fla => exact ⟨_, .fla, rfl⟩
  | invalid code => exact ⟨_, .invalid code, rfl⟩
  | get small =>
    refine ⟨_, .get small, ?_⟩
    apply State.ext <;> simp [State.withCountOutQ]
  | getFault large =>
    refine ⟨_, .getFault large, ?_⟩
    apply State.ext <;> simp [State.withCountOutQ]

/-- Settles O54: nothing an instruction looks at is the count or the output queue. -/
theorem counterAndOutputAreNeverRead : Obligations.CounterAndOutputAreNeverRead := by
  intro i s t n q h
  obtain ⟨u, ran, same⟩ := (exec_iff.1 h).withCountOutQ n q
  exact ⟨u, ran.exec_eq, same⟩

end Sys2Proof.Machine

/-! # Load, snapshot and reset (R41, R187, R191 to R194) -/

namespace Sys2Proof.Machine

/-- The memory a load makes of its eight memory bytes (R41). -/
def imageMemory (m0 m1 m2 m3 m4 m5 m6 m7 : Byte) : Memory :=
  [(0, m0), (1, m1), (2, m2), (3, m3), (4, m4), (5, m5), (6, m6), (7, m7)]

/-- The machine a load makes of two register bytes and a memory (R41, R191). -/
def loadedState (c : Config) (regs : Byte × Byte) (m : Memory) : State :=
  ({ State.reset with mem := m, inQ := c.inputSeed, outQ := c.outputSeed, cfg := c } : State).withRegBytes regs

theorem imageMemory_wf (m0 m1 m2 m3 m4 m5 m6 m7 : Byte) : (imageMemory m0 m1 m2 m3 m4 m5 m6 m7).wf = true := rfl

theorem imageMemory_loaded (m0 m1 m2 m3 m4 m5 m6 m7 : Byte) :
    (imageMemory m0 m1 m2 m3 m4 m5 m6 m7).loaded = true := rfl

/-- A load that makes a machine makes it of the first ten bytes. -/
theorem load_eq_some {c : Config} {payload : List Byte} {s : State} (h : State.load c payload = some s) :
    ∃ r0 r1 m0 m1 m2 m3 m4 m5 m6 m7 more, payload = r0 :: r1 :: m0 :: m1 :: m2 :: m3 :: m4 :: m5 :: m6 :: m7 :: more ∧
      s = loadedState c (r0, r1) (imageMemory m0 m1 m2 m3 m4 m5 m6 m7) := by
  unfold State.load at h
  split at h
  next r0 r1 m0 m1 m2 m3 m4 m5 m6 m7 more =>
    cases h
    exact ⟨r0, r1, m0, m1, m2, m3, m4, m5, m6, m7, more, rfl, rfl⟩
  · cases h

/-- A seed that fits is within the capacity and holds nibbles (R194). -/
theorem seedFits_iff (c : Config) (seed : List Byte) :
    c.seedFits seed = true ↔ seed.length ≤ c.qcap ∧ ∀ v ∈ seed, v.toNat ≤ 15 := by
  simp [Config.seedFits]

/-- Settles O46: the image's bytes are split into the four registers and the memory, and the rest is reset or seeded. -/
theorem loadTakesImage : Obligations.LoadTakesImage := by
  intro c image s length h
  obtain ⟨r0, r1, m0, m1, m2, m3, m4, m5, m6, m7, more, rfl, rfl⟩ := load_eq_some h
  refine ⟨fun b first => ?_, fun b second => ?_, fun k hk => ?_, rfl, rfl, rfl, rfl, rfl⟩
  · cases first
    exact ⟨toNat_hiNibble _, toNat_loNibble _⟩
  · cases second
    exact ⟨toNat_hiNibble _, toNat_loNibble _⟩
  · interval_cases k <;> rfl

/-- Settles O47: the register bytes round-trip, and each of the eight memory bytes is read where the load put it. -/
theorem snapshotReturnsImage : Obligations.SnapshotReturnsImage := by
  intro c r0 r1 bytes eight
  obtain ⟨s, loaded, -⟩ := State.load_take c (payload := r0 :: r1 :: bytes) (by simp [eight])
  obtain ⟨_, _, m0, m1, m2, m3, m4, m5, m6, m7, more, same, rfl⟩ := load_eq_some loaded
  cases same
  obtain rfl : more = [] := by simpa using eight
  have regs : (loadedState c (r0, r1) (imageMemory m0 m1 m2 m3 m4 m5 m6 m7)).regBytes = (r0, r1) :=
    registerBytesRoundTrip.1 _ _
  refine ⟨_, loaded, ?_⟩
  rw [State.snapshot, regs]
  rfl

/-- Settles O50: the image is canonical and complete, and the queues are the seeds, which fit. -/
theorem loadMeetsInvariant : Obligations.LoadMeetsInvariant := by
  intro c payload s launchable h
  obtain ⟨r0, r1, m0, m1, m2, m3, m4, m5, m6, m7, more, rfl, rfl⟩ := load_eq_some h
  rw [Config.launchable, Bool.and_eq_true, seedFits_iff, seedFits_iff] at launchable
  obtain ⟨⟨inputFits, inputNibbles⟩, outputFits, outputNibbles⟩ := launchable
  exact ⟨⟨imageMemory_wf .., inputFits, outputFits, Nat.zero_le _, trivial⟩, imageMemory_loaded ..,
    inputNibbles, outputNibbles⟩

/-- Settles O49: at reset memory and queues are empty, and the count and all registers 0. -/
theorem resetMeetsInvariant : Obligations.ResetMeetsInvariant := by
  have inv : State.reset.Inv := ⟨Memory.wf_reset, Nat.zero_le _, Nat.zero_le _, Nat.zero_le _, trivial⟩
  exact ⟨inv, rfl, rfl, rfl, rfl, rfl, rfl, rfl, rfl⟩

/-! # The guard (R91, R92, R98, R180, R192) -/

/-- What the guard answers is what the step answers. -/
theorem step_of_loopGuard {s : State} {x : Answer} (h : loopGuard s = some x) : step s = x := by
  simp only [step, h]

/-- Settles O8: HF comes before the budget in the guard's tests. -/
theorem loopGuardEndsRun : Obligations.LoopGuardEndsRun := by
  refine fun s running image => ⟨step_halting running image, fun going spent => step_of_loopGuard ?_⟩
  simp only [loopGuard, running, image, going, spent]
  rfl

/-- Settles O9: the guard tests the status first. -/
theorem endedRunExecutesNothing : Obligations.EndedRunExecutesNothing :=
  fun _ ended => step_of_loopGuard (if_pos ended)

/-- A machine without a complete image is refused before HF and the budget are looked at (R192). -/
theorem step_of_not_loaded {s : State} (running : s.status = .running) (noImage : s.mem.loaded = false) :
    step s = .refused .noImage :=
  step_of_loopGuard (by simp [loopGuard, running, noImage])

/-- Settles O10: a byte without a value leaves the image incomplete. -/
theorem machineWithoutImageIsRefused : Obligations.MachineWithoutImageIsRefused := by
  refine ⟨fun s running ⟨k, hk, noValue⟩ => step_of_not_loaded running ?_, step_of_not_loaded rfl rfl⟩
  rw [← Bool.not_eq_true, Memory.loaded_iff]
  intro image
  obtain ⟨b, held⟩ := image k hk
  cases noValue.symm.trans held

/-! # Ports and the sentinel (R130, R131, R160, R177) -/

/-- While PORTS_ENABLED is true every opcode nibble decodes to its entry of the listing order (R76). -/
theorem portWordDecodes (op : Nibble) : PortWordDecodes op (instrOf (listingOrder[op.toNat]'op.isLt)) := by
  intro c x listed enabled
  have gateOpen : ¬ c.gated op = true := by simp [c.gated_iff, enabled]
  rw [decode_join_of_not_gated gateOpen, opcodeAt_of_listingOrder listed]

/-- A fault taken, as the record that names its three changes (R177). -/
theorem takeFault_eq (f : Fault) (s : State) :
    takeFault f s = { s with fr := packFlags true s.ov s.zf s.cf, status := .faulted f } := by
  rw [takeFault, State.setHF_eq]
  rfl

/-- The value of a nibble in a byte is 0 where the byte is (R30). -/
theorem zeroFlag_ofNat_toNat {v : Byte} (small : v.toNat ≤ 15) :
    zeroFlag (BitVec.ofNat 4 v.toNat) = decide (v = 0) := by
  rw [zeroFlag_ofNat small]
  exact decide_eq_decide.2 (BitVec.toNat_inj (y := 0))

theorem popInput_of_nil {s : State} (empty : s.inQ = []) : popInput s = (0, s) := by
  simp only [popInput, empty]

theorem popInput_of_cons {s : State} {v : Byte} {rest : List Byte} (front : s.inQ = v :: rest) :
    popInput s = (v, { s with inQ := rest }) := by
  simp only [popInput, front]

/-- GET's load of what it popped, as the record that names its changes (R130). -/
theorem execGet_eq {s t : State} {v : Byte} (popped : popInput (s.advanceIP 1) = (v, t)) (small : v.toNat ≤ 15) :
    execGet s = .next { t with
      ac := BitVec.ofNat 4 v.toNat, fr := packFlags t.hf t.ov (decide (v = 0)) t.cf, count := t.count + 1 } := by
  simp only [execGet, popped, setReg_ac t small, State.writeAC_eq, zeroFlag_ofNat_toNat small]
  rfl

/-- GET's fault at what it popped (R130, R177). -/
theorem execGet_eq_fault {s t : State} {v : Byte} (popped : popInput (s.advanceIP 1) = (v, t)) (large : 15 < v.toNat) :
    execGet s = .next { t with fr := packFlags true t.ov t.zf t.cf, status := .faulted (.valueTooLarge v.toNat) } := by
  simp only [execGet, popped, setReg_tooLarge .ac t large, fail, takeFault_eq]

/-- Settles O18: an empty queue gives 0 and stays as it is, and a small front entry reaches AC through the accessor. -/
theorem getPopsInputQueue : Obligations.GetPopsInputQueue := by
  refine ⟨portWordDecodes 6, fun s => ⟨fun empty => ?_, fun v rest front small => ?_⟩⟩
  · exact execGet_eq (popInput_of_nil empty) (by decide)
  · exact execGet_eq (popInput_of_cons front) small

/-- Settles O19: the pop and the advance of IP come before the check that fails. -/
theorem getOfLargeEntryFaults : Obligations.GetOfLargeEntryFaults :=
  fun _ _ _ front large => execGet_eq_fault (popInput_of_cons front) large

/-- A queue within the capacity, with one entry more in front, is trimmed to its first QCAP entries (R36). -/
theorem trimQueue_cons_eq_take {cap : Nat} {q : List Byte} (v : Byte) (h : q.length ≤ cap) :
    trimQueue cap (v :: q) = (v :: q).take cap := by
  unfold trimQueue
  split
  next exceeds =>
    have full : (v :: q).length - 1 = cap := by
      rw [List.length_cons] at exceeds ⊢
      omega
    rw [List.dropLast_eq_take, full]
  next fits => exact (List.take_of_length_le (not_lt.1 fits)).symm

/-- Settles O20: PUT's trimming takes the first QCAP entries of a queue that was within QCAP. -/
theorem putPushesOutputQueue : Obligations.PutPushesOutputQueue := by
  refine ⟨portWordDecodes 7, fun s within => ?_⟩
  rw [← trimQueue_cons_eq_take _ within, BitVec.ofNat_toNat]
  rfl

/-- Settles O28: the sentinel does nothing but take its fault, and its words are the gated ones. -/
theorem invalidTakesFault : Obligations.InvalidTakesFault := by
  refine fun s code => ⟨?_, fun disabled port x => ?_⟩
  · rw [exec, execInvalid, fail, takeFault_eq]
  · exact decode_join_of_gated ((s.cfg.gated_iff code).2 ⟨port, disabled⟩) x

end Sys2Proof.Machine

/-! # Runs (R91, R100, R101)

What an iteration of a run that goes on can do, that an ended run stays as it is, and the bounds on the length of a run. -/

namespace Sys2Proof.Machine

/-! ## Iterations -/

/-- Iterations that answer a state took a first step. -/
theorem iterate_succ_next {n : Nat} {s t : State} (h : iterate (n + 1) s = .next t) :
    ∃ u, step s = .next u ∧ iterate n u = .next t := by
  simp only [iterate] at h
  split at h
  next u first => exact ⟨u, first, h⟩
  · cases h
  · cases h

/-- What every step keeps, every number of iterations keeps. -/
theorem iterate_keeps {P : State → Prop} (keeps : ∀ s t, step s = .next t → P s → P t) {n : Nat} {s t : State}
    (h : iterate n s = .next t) (start : P s) : P t := by
  induction n generalizing s with
  | zero => cases h; exact start
  | succ n ih =>
    obtain ⟨u, first, rest⟩ := iterate_succ_next h
    exact ih rest (keeps s u first start)

/-- Iterations keep the configuration (R39). -/
theorem iterate_cfg {n : Nat} {s t : State} (h : iterate n s = .next t) : t.cfg = s.cfg :=
  iterate_keeps (P := fun u => u.cfg = s.cfg) (fun u v stepped same => (configurationIsConstant u v stepped).trans same)
    h rfl

/-- A machine with an image answers a state after any number of iterations. -/
theorem iterate_of_loaded {s : State} (image : s.mem.loaded = true) (n : Nat) : ∃ t, iterate n s = .next t := by
  induction n generalizing s with
  | zero => exact ⟨s, rfl⟩
  | succ n ih =>
    obtain ⟨u, first, image'⟩ := loadedMachineAlwaysSteps s image
    rw [iterate_succ first]
    exact ih image'

/-- An ended run stays as it is (R180, log entry 4). -/
theorem iterate_of_ended {s : State} (ended : s.status ≠ .running) (n : Nat) : iterate n s = .next s := by
  induction n with
  | zero => rfl
  | succ n ih => rw [iterate_succ (endedRunExecutesNothing s ended), ih]

/-- A run that has ended after `a` iterations is the same after any number from `a` on. -/
theorem iterate_of_ended_of_le {a b : Nat} {s t : State} (h : iterate a s = .next t) (ended : t.status ≠ .running)
    (le : a ≤ b) : iterate b s = .next t := by
  obtain ⟨k, rfl⟩ := Nat.exists_eq_add_of_le le
  rw [iterate_add k h, iterate_of_ended ended]

/-- A run going after some iterations was going before them. -/
theorem running_of_iterate {n : Nat} {s t : State} (h : iterate n s = .next t) (going : t.status = .running) :
    s.status = .running := by
  by_contra ended
  cases (iterate_of_ended ended n).symm.trans h
  exact ended going

/-! ## An iteration of a run that goes on -/

/-- A step after which the run goes on passed the guard, and its instruction was counted without a fault (R92, R95). -/
theorem step_going {s t : State} (h : step s = .next t) (going : t.status = .running) :
    s.Ready ∧ ∃ i, Executes s i t ∧ t.count = s.count + countedBy i s := by
  rcases step_cases h with ⟨ended, rfl⟩ | ⟨_, _, _, rfl⟩ | ⟨_, _, _, _, rfl⟩ | ⟨ready, w, _, ran⟩
  · exact absurd going ended
  · cases going
  · cases going
  · refine ⟨ready, _, exec_iff.1 ran, ?_⟩
    rcases (exec_iff.1 ran).status_cases with ⟨_, counted⟩ | ⟨_, _, ⟨_, _, faulted⟩ | ⟨_, faulted⟩⟩
    · exact counted
    · cases faulted.symm.trans going
    · cases faulted.symm.trans going

/-- A run that goes on after at least one iteration passed the guard first. -/
theorem ready_of_iterate_succ {n : Nat} {s t : State} (h : iterate (n + 1) s = .next t) (going : t.status = .running) :
    s.Ready := by
  obtain ⟨u, first, rest⟩ := iterate_succ_next h
  exact (step_going first (running_of_iterate rest going)).1

/-- While the run goes on the count never falls (R38). -/
theorem count_le_of_iterate {n : Nat} {s t : State} (h : iterate n s = .next t) (going : t.status = .running) :
    s.count ≤ t.count := by
  induction n generalizing s with
  | zero => cases h; exact le_rfl
  | succ n ih =>
    obtain ⟨u, first, rest⟩ := iterate_succ_next h
    obtain ⟨_, i, _, counted⟩ := step_going first (running_of_iterate rest going)
    have later := ih rest
    omega

/-! ## When every instruction is counted (R95, R100) -/

theorem countedBy_of_countNotTaken {s : State} (counts : s.cfg.countNotTaken = true) (i : Instr) : countedBy i s = 1 := by
  by_cases fails : jumpFails i s
  · rw [countedBy_of_jumpFails fails, counts]
    rfl
  · exact countedBy_of_not_jumpFails fails

/-- With COUNT_NOT_TAKEN, a run that still goes on has counted every iteration. -/
theorem count_of_iterate {n : Nat} {s t : State} (counts : s.cfg.countNotTaken = true) (h : iterate n s = .next t)
    (going : t.status = .running) : t.count = s.count + n := by
  induction n generalizing s with
  | zero => cases h; rfl
  | succ n ih =>
    obtain ⟨u, first, rest⟩ := iterate_succ_next h
    obtain ⟨_, i, ran, counted⟩ := step_going first (running_of_iterate rest going)
    rw [countedBy_of_countNotTaken counts] at counted
    have later := ih (by rwa [ran.cfg_eq]) rest
    omega

/-- Settles O55: a run still going would have counted its budget out before the last iteration, which the guard then does
not let pass. -/
theorem countedRunsEnd : Obligations.CountedRunsEnd := by
  intro s image counts
  obtain ⟨t, last⟩ := iterate_of_loaded image (s.cfg.budget - s.count + 1)
  refine ⟨t, last, fun going => ?_⟩
  obtain ⟨u, most, guarded⟩ := iterate_split last
  have ready := ready_of_iterate_succ guarded going
  have spent := count_of_iterate counts most ready.running
  have room := ready.budgetLeft
  rw [iterate_cfg most] at room
  omega

/-! ## When nothing is counted (R95, R100) -/

/-- An instruction that runs on uncounted is a jump not taken: IP advances by 2 and nothing else changes. -/
theorem Executes.eq_advanceIP_of_uncounted {i : Instr} {s t : State} (ran : Executes s i t)
    (going : t.status = .running) (uncounted : t.count = s.count) : t = s.advanceIP 2 := by
  cases ran with
  | jzePassed | jnzPassed =>
    rw [State.setCount_count] at uncounted
    rw [uncounted]
    rfl
  | getFault | invalid => cases going
  | _ => exact absurd uncounted (Nat.succ_ne_self _)

theorem State.advanceIP_advanceIP (s : State) (m n : Nibble) :
    (s.advanceIP m).advanceIP n = s.advanceIP (m + n) := by
  simp [State.advanceIP, BitVec.add_assoc]

/-- A run that goes on and counts nothing has only advanced IP, by 2 with each iteration. -/
theorem eq_advanceIP_of_iterate {n : Nat} {s t : State} (h : iterate n s = .next t) (going : t.status = .running)
    (uncounted : t.count = s.count) : t = s.advanceIP (BitVec.ofNat 4 (2 * n)) := by
  induction n generalizing s with
  | zero =>
    cases h
    simp [State.advanceIP]
  | succ n ih =>
    obtain ⟨u, first, rest⟩ := iterate_succ_next h
    obtain ⟨_, i, ran, counted⟩ := step_going first (running_of_iterate rest going)
    have grows := count_le_of_iterate rest going
    have u_eq := ran.eq_advanceIP_of_uncounted (running_of_iterate rest going) (by omega)
    rw [ih rest (by omega), u_eq, State.advanceIP_advanceIP, Nat.mul_succ, Nat.add_comm, BitVec.ofNat_add]
    rfl

/-- A run that some iterations bring back to where it was goes on for ever. -/
theorem running_of_cycle {p : Nat} {s : State} (cycle : iterate (p + 1) s = .next s) (going : s.status = .running)
    (n : Nat) : ∃ u, iterate n s = .next u ∧ u.status = .running := by
  induction n using Nat.strong_induction_on with
  | _ n ih =>
    rcases Nat.lt_or_ge n (p + 1) with inside | around
    · obtain ⟨k, hk⟩ := Nat.exists_eq_add_of_lt inside
      rw [hk, Nat.add_assoc] at cycle
      obtain ⟨u, reached, rest⟩ := iterate_split cycle
      exact ⟨u, reached, running_of_iterate rest going⟩
    · obtain ⟨k, rfl⟩ := Nat.exists_eq_add_of_le around
      rw [iterate_add k cycle]
      exact ih k (by omega)

/-- Settles O56: eight advances by 2 go once around the 16 locations. -/
theorem eightUncountedStepsRepeat : Obligations.EightUncountedStepsRepeat := by
  intro s t h going uncounted
  have back : t = s := by
    rw [eq_advanceIP_of_iterate h going uncounted]
    simp [State.advanceIP]
  subst back
  exact ⟨rfl, running_of_cycle h going⟩

/-! ## The bound on a run that ends (R100) -/

/-- Settles O57: eight iterations end the run or count, since otherwise it would never end; and the budget bounds how often
they count. -/
theorem endingRunsEndSoon : Obligations.EndingRunsEndSoon := by
  intro s n t h ended
  induction left : s.cfg.budget - s.count using Nat.strong_induction_on generalizing s with
  | _ left ih =>
    obtain ⟨u, eight, rest⟩ := iterate_split (iterate_of_ended_of_le h ended (Nat.le_add_left n 8))
    by_cases going : u.status = .running
    · have counted : u.count ≠ s.count := fun uncounted => by
        obtain ⟨v, reached, vGoing⟩ := (eightUncountedStepsRepeat s u eight going uncounted).2 n
        cases reached.symm.trans h
        exact ended vGoing
      have grows := count_le_of_iterate eight going
      have room := (ready_of_iterate_succ eight going).budgetLeft
      have cfg := iterate_cfg eight
      obtain ⟨v, reached, vEnded⟩ := ih (u.cfg.budget - u.count) (by rw [cfg]; omega) u rest rfl
      refine ⟨v, iterate_of_ended_of_le ((iterate_add _ eight).trans reached) vEnded ?_, vEnded⟩
      rw [cfg]
      omega
    · exact ⟨u, iterate_of_ended_of_le eight going (by omega), going⟩

/-! ## A jump to itself (R101) -/

/-- A run at a JMP to itself only counts. -/
theorem step_selfJump {s : State} (ready : s.Ready) (listed : s.cfg.opcodeMap = listingOrder)
    (opcode : s.mem.nibble s.ip.toNat = some 1) (operand : s.mem.nibble (s.ip + 1).toNat = some s.ip) :
    step s = .next { s with count := s.count + 1 } := by
  rw [stepRunsDecodedInstruction s 1 s.ip ready opcode operand, jmpGoesToOperand.1 s.cfg s.ip listed,
    jmpGoesToOperand.2]

/-- Until the budget is reached, each iteration at a JMP to itself counts one. -/
theorem iterate_selfJump {s : State} (ready : s.Ready) (listed : s.cfg.opcodeMap = listingOrder)
    (opcode : s.mem.nibble s.ip.toNat = some 1) (operand : s.mem.nibble (s.ip + 1).toNat = some s.ip) {n : Nat}
    (room : s.count + n ≤ s.cfg.budget) : iterate n s = .next { s with count := s.count + n } := by
  induction n with
  | zero => rfl
  | succ n ih =>
    have ready' : ({ s with count := s.count + n } : State).Ready :=
      ⟨ready.running, ready.notHalted, by show s.count + n < s.cfg.budget; omega, ready.image⟩
    rw [iterate_add 1 (ih (by omega)), iterate_succ (step_selfJump ready' listed opcode operand)]
    rfl

/-- Settles O58: what is left of the budget is counted one by one, and then the guard finds it spent. -/
theorem selfJumpIsCutOffAtBudget : Obligations.SelfJumpIsCutOffAtBudget := by
  intro s ready listed opcode operand
  have room := ready.budgetLeft
  have total : s.count + (s.cfg.budget - s.count) = s.cfg.budget := by omega
  have spinning := iterate_selfJump ready listed opcode operand total.le
  rw [total] at spinning
  have exhausted := (loopGuardEndsRun { s with count := s.cfg.budget } ready.running ready.image).2 ready.notHalted le_rfl
  exact ⟨spinning, by rw [iterate_add 1 spinning, iterate_succ exhausted]; rfl⟩

end Sys2Proof.Machine
